-- ==== Sys2Proof/Word.lean ====
section
/-! DEFINITION. The bit vectors of the block (spec 00_scope.md R6): the byte `u8`, the 16-bit length `u16` and the
32-bit two's-complement `i32` of a VALUE data point (its signed reading is `BitVec.toInt`). -/
namespace Sys2Proof

/-- `u8` of R6. -/
abbrev Byte := BitVec 8

/-- `u16` of R6. -/
abbrev Half := BitVec 16

/-- The 32-bit pattern of an `i32` of R6; the signed value is its `toInt`. -/
abbrev Word := BitVec 32

end Sys2Proof
end

