-- ==== Sys2Proof/Config.lean ====
section
/-! DEFINITION. What is fixed for one build of the block (00_scope.md R5): the parameters, the fixed capacities, the
types of a data point, and the values the spec leaves unspecified (93_implementation_defined.md U1) as free values. -/
namespace Sys2Proof

/-- `CSUM_POLICY` of R5: what `RX.SCAN` does with its buffer on a checksum mismatch (40_rx_frame_parser.md R104). -/
inductive CsumPolicy where
  | hold
  | drop1
  deriving DecidableEq, Repr, Inhabited

/-- The OPEN parameters of R5, arguments of the model (log entry 1). -/
structure Params where
  rxCap : Nat
  txCap : Nat
  csumPolicy : CsumPolicy
  deriving DecidableEq, Repr, Inhabited

/-- The values R5 suggests and 95_test_vectors.md uses. DESIGN CHOICE (log entry 1): they are only the start values of
the parameters; every claim about a state holds for whatever parameters that state carries. -/
def Params.suggested : Params := { rxCap := 256, txCap := 256, csumPolicy := .drop1 }

/-- `DP_CAP` of R5. -/
@[simp] abbrev Config.dpCap : Nat := 64
/-- `STR_MAX` of R5. -/
@[simp] abbrev Config.strMax : Nat := 63
/-- `BITMAP_CAP` of R5. -/
@[simp] abbrev Config.bitmapCap : Nat := 4
/-- `SYNC1` of R5. -/
@[simp] abbrev Config.sync1 : Byte := 0x55
/-- `SYNC2` of R5. -/
@[simp] abbrev Config.sync2 : Byte := 0xAA
/-- `HDR_LEN` of R5. -/
@[simp] abbrev Config.hdrLen : Nat := 6

/-- The six values of `DP.type` (10_state.md R34); the wire numbers are `DpType.code` (30_encoding.md R77). -/
inductive DpType where
  | raw
  | bool
  | value
  | string
  | enum
  | bitmap
  deriving DecidableEq, Repr, Inhabited

/-- `DP.val` of 10_state.md R36, one variant per type. -/
inductive DpVal where
  | raw (b : List Byte)
  | bool (t : Bool)
  | value (v : Word)
  | str (s : List Byte)
  | enum (e : Byte)
  | bitmap (b : List Byte)
  deriving DecidableEq, Repr, Inhabited

/-- FREE VALUE: `DP.id` where R37 and R44 call it unspecified (log entry 5). -/
opaque Config.freeDpId : Nat → Byte
/-- FREE VALUE: `DP.type` where R37 and R44 call it unspecified (log entry 5). -/
opaque Config.freeDpType : Nat → DpType
/-- FREE VALUE: `DP.len` where R37 and R44 call it unspecified (log entry 5). -/
opaque Config.freeDpLen : Nat → Half
/-- FREE VALUE: `DP.val` where R37 and R44 call it unspecified (log entry 5). -/
opaque Config.freeDpVal : Nat → DpVal

end Sys2Proof
end

