-- ==== Sys2Proof/Syntax.lean ====
section
/-! DEFINITION. The instructions: one constructor per row of spec/opcode_table.json. Fourteen are the operations of
30_encoding.md R80 with the operands of R81; seven are the wire patterns of R85, which `RX.SCAN` and `DP.DEC` recognise
in the bytes they read. -/
namespace Sys2Proof

inductive Instr where
  /-- `RESET`, 70_reset_and_hazards.md R230. -/
  | reset
  /-- `RX.RESET`, 40_rx_frame_parser.md R100. -/
  | rxReset
  /-- `RX.PUSH b`, R101. -/
  | rxPush (b : Byte)
  /-- `RX.SCAN`, R102. -/
  | rxScan
  /-- `RX.PASS`, R106. -/
  | rxPass
  /-- `TX.FRAME ver cmd P`, 41_tx_frame_assembler.md R131. -/
  | txFrame (ver cmd : Byte) (payload : List Byte)
  /-- `DP.SET_RAW id B`, 42_dp_setters.md R151. -/
  | dpSetRaw (id : Byte) (bytes : List Byte)
  /-- `DP.SET_BOOL id t`, R152. -/
  | dpSetBool (id : Byte) (t : Bool)
  /-- `DP.SET_VALUE id v`, R153. -/
  | dpSetValue (id : Byte) (v : Word)
  /-- `DP.SET_STRING id S`, R154. -/
  | dpSetString (id : Byte) (bytes : List Byte)
  /-- `DP.SET_ENUM id e`, R155. -/
  | dpSetEnum (id : Byte) (e : Byte)
  /-- `DP.SET_BITMAP id B`, R156. -/
  | dpSetBitmap (id : Byte) (bytes : List Byte)
  /-- `DP.ENC`, 43_dp_codec.md R171. -/
  | dpEnc
  /-- `DP.DEC B`, R173. -/
  | dpDec (bytes : List Byte)
  /-- `WIRE.FRAME`: the header of a candidate frame at index 0 of `RXBUF` (R70, R85); the payload and the checksum are
  the bytes behind it in the buffer. -/
  | wireFrame (ver cmd : Byte) (len : Half)
  /-- `WIRE.DP.RAW`: a record header of type 0 (R76, R85) and every byte that follows it in the operand of `DP.DEC`;
  so with the five below. -/
  | wireDpRaw (id : Byte) (len : Half) (rest : List Byte)
  /-- `WIRE.DP.BOOL`, type 1. -/
  | wireDpBool (id : Byte) (len : Half) (rest : List Byte)
  /-- `WIRE.DP.VALUE`, type 2. -/
  | wireDpValue (id : Byte) (len : Half) (rest : List Byte)
  /-- `WIRE.DP.STRING`, type 3. -/
  | wireDpString (id : Byte) (len : Half) (rest : List Byte)
  /-- `WIRE.DP.ENUM`, type 4. -/
  | wireDpEnum (id : Byte) (len : Half) (rest : List Byte)
  /-- `WIRE.DP.BITMAP`, type 5. -/
  | wireDpBitmap (id : Byte) (len : Half) (rest : List Byte)
  deriving DecidableEq, Repr

end Sys2Proof
end

