-- ==== Sys2Proof/WellFormed.lean ====
section
/-! DEFINITION. Which instructions are well-formed: 30_encoding.md R79. Every operand an operation request can carry is
legal (R81: no operand value is refused), and so is every frame header (R75; whether it fits is a matter of `RX_CAP`,
not of its form). A DP record is illegal when it declares more than `DP_CAP` bytes or holds fewer than it declares. An
ill-formed record still has a meaning: `MalformedDP`. -/
namespace Sys2Proof

/-- The two length conditions R79 puts on a DP record with header length `len` and `rest` behind the header. -/
def recordWellFormed (len : Half) (rest : List Byte) : Bool :=
  decide (len.toNat ≤ Config.dpCap) && decide (len.toNat ≤ rest.length)

/-- R79, per instruction. -/
def Instr.wellFormed : Instr → Bool
  | .reset => true
  | .rxReset => true
  | .rxPush _ => true
  | .rxScan => true
  | .rxPass => true
  | .txFrame _ _ _ => true
  | .dpSetRaw _ _ => true
  | .dpSetBool _ _ => true
  | .dpSetValue _ _ => true
  | .dpSetString _ _ => true
  | .dpSetEnum _ _ => true
  | .dpSetBitmap _ _ => true
  | .dpEnc => true
  | .dpDec _ => true
  | .wireFrame _ _ _ => true
  | .wireDpRaw _ len rest => recordWellFormed len rest
  | .wireDpBool _ len rest => recordWellFormed len rest
  | .wireDpValue _ len rest => recordWellFormed len rest
  | .wireDpString _ len rest => recordWellFormed len rest
  | .wireDpEnum _ len rest => recordWellFormed len rest
  | .wireDpBitmap _ len rest => recordWellFormed len rest

end Sys2Proof
end

