-- ==== Sys2Proof/Decode.lean ====
section
/-! DEFINITION. Bytes to instructions and back: the byte-order helpers of 00_scope.md R8, the decoders of the three
formats of spec/opcode_table.json (30_encoding.md R80 to R82 requests, R70 frames, R76 records), total and rejecting by
name, the encoder written from the same tables, and the table's own numbering of the words (log entry 11). -/
namespace Sys2Proof

/-! ### Byte order (R8, R51: big-endian throughout) -/

/-- `be16(h, l) = 256*h + l` (R8). -/
def be16 (h l : Byte) : Half := BitVec.ofNat 16 (256 * h.toNat + l.toNat)
/-- `hi8(v) = v[15:8]` (R8). -/
def hi8 (v : Half) : Byte := v.extractLsb' 8 8
/-- `lo8(v) = v[7:0]` (R8). -/
def lo8 (v : Half) : Byte := v.extractLsb' 0 8
/-- `be32(v)`: the four bytes of the pattern, most significant first (R8). -/
def be32 (v : Word) : List Byte :=
  [v.extractLsb' 24 8, v.extractLsb' 16 8, v.extractLsb' 8 8, v.extractLsb' 0 8]
/-- `s32(b0, b1, b2, b3)`: the 32-bit word whose most significant byte is `b0` (R8); its two's-complement reading is
`toInt`. -/
def s32 (b0 b1 b2 b3 : Byte) : Word :=
  BitVec.ofNat 32 (16777216 * b0.toNat + 65536 * b1.toNat + 256 * b2.toNat + b3.toNat)

/-! ### Code tables -/

/-- The fourteen operations of R80. -/
inductive Op where
  | reset | rxReset | rxPush | rxScan | rxPass | txFrame
  | dpSetRaw | dpSetBool | dpSetValue | dpSetString | dpSetEnum | dpSetBitmap | dpEnc | dpDec
  deriving DecidableEq, Repr

/-- The operation-select codes of R80. -/
def Op.code : Op → Byte
  | .reset => 0x00
  | .rxReset => 0x10
  | .rxPush => 0x11
  | .rxScan => 0x12
  | .rxPass => 0x13
  | .txFrame => 0x20
  | .dpSetRaw => 0x30
  | .dpSetBool => 0x31
  | .dpSetValue => 0x32
  | .dpSetString => 0x33
  | .dpSetEnum => 0x34
  | .dpSetBitmap => 0x35
  | .dpEnc => 0x38
  | .dpDec => 0x39

def Op.all : List Op :=
  [.reset, .rxReset, .rxPush, .rxScan, .rxPass, .txFrame, .dpSetRaw, .dpSetBool, .dpSetValue, .dpSetString,
   .dpSetEnum, .dpSetBitmap, .dpEnc, .dpDec]

/-- "A decoder matches the whole byte" (R80); `none` for a reserved code (R82). -/
def Op.ofCode (b : Byte) : Option Op := Op.all.find? (fun o => o.code == b)

/-- The type codes of R77. -/
def DpType.code : DpType → Byte
  | .raw => 0
  | .bool => 1
  | .value => 2
  | .string => 3
  | .enum => 4
  | .bitmap => 5

/-- R77; codes 6..255 are reserved (R79). -/
def DpType.ofCode (b : Byte) : Option DpType :=
  [DpType.raw, .bool, .value, .string, .enum, .bitmap].find? (fun t => t.code == b)

/-- Why bytes are no instruction. -/
inductive DecodeError where
  /-- The operation-select code is none of the fourteen (R82). -/
  | reservedOp (op : Byte)
  /-- The bytes end before the instruction does (log entry 9). -/
  | truncated
  /-- The first two bytes of a would-be frame are not the sync sequence (R73). -/
  | noSync
  /-- The type byte of a would-be record is 6..255 (R79). -/
  | reservedType (ty : Byte)
  deriving DecidableEq, Repr

/-- The three formats of spec/opcode_table.json (R85). -/
inductive Format where
  | opRequest
  | frame
  | dpRecord
  deriving DecidableEq, Repr

/-! ### Operands of a request. R81 gives an operand's content and not its bits; this layout is a DESIGN CHOICE
(log entry 2). -/

/-- The length `n` of a byte-string operand, any natural number (R81): a run of 0xFF bytes counting 255 each, then one
byte below 0xFF. -/
def encodeLen (n : Nat) : List Byte := List.replicate (n / 255) (0xFF : Byte) ++ [BitVec.ofNat 8 (n % 255)]

def decodeLen : List Byte → Option (Nat × List Byte)
  | [] => none
  | b :: rest =>
    if b = 0xFF then
      match decodeLen rest with
      | none => none
      | some (n, rest') => some (n + 255, rest')
    else some (b.toNat, rest)

/-- "a length `n` ... and `n` bytes" (R81). -/
def encodeString (s : List Byte) : List Byte := encodeLen s.length ++ s

def decodeString (bs : List Byte) : Option (List Byte × List Byte) :=
  match decodeLen bs with
  | none => none
  | some (n, rest) => if rest.length < n then none else some (rest.take n, rest.drop n)

/-- "The boolean operand ... is one bit" (R81): bit 0 of one byte. -/
def encodeBit (t : Bool) : Byte := if t then 1 else 0
def decodeBit (b : Byte) : Bool := b.getLsbD 0

/-! ### Decoders -/

/-- The operands of each operation (R80), after its code; what remains of the bytes is the next request's. -/
def decodeOperands : Op → List Byte → Option (Instr × List Byte)
  | .reset, r => some (.reset, r)
  | .rxReset, r => some (.rxReset, r)
  | .rxPush, b :: r => some (.rxPush b, r)
  | .rxPush, [] => none
  | .rxScan, r => some (.rxScan, r)
  | .rxPass, r => some (.rxPass, r)
  | .txFrame, ver :: cmd :: r => (decodeString r).map fun x => (.txFrame ver cmd x.1, x.2)
  | .txFrame, _ => none
  | .dpSetRaw, id :: r => (decodeString r).map fun x => (.dpSetRaw id x.1, x.2)
  | .dpSetRaw, [] => none
  | .dpSetBool, id :: t :: r => some (.dpSetBool id (decodeBit t), r)
  | .dpSetBool, _ => none
  | .dpSetValue, id :: b0 :: b1 :: b2 :: b3 :: r => some (.dpSetValue id (s32 b0 b1 b2 b3), r)
  | .dpSetValue, _ => none
  | .dpSetString, id :: r => (decodeString r).map fun x => (.dpSetString id x.1, x.2)
  | .dpSetString, [] => none
  | .dpSetEnum, id :: e :: r => some (.dpSetEnum id e, r)
  | .dpSetEnum, _ => none
  | .dpSetBitmap, id :: r => (decodeString r).map fun x => (.dpSetBitmap id x.1, x.2)
  | .dpSetBitmap, [] => none
  | .dpEnc, r => some (.dpEnc, r)
  | .dpDec, r => (decodeString r).map fun x => (.dpDec x.1, x.2)

/-- One operation request from the front of the request port's bytes (R80, R82). -/
def decodeRequest : List Byte → Except DecodeError (Instr × List Byte)
  | [] => .error .truncated
  | op :: r =>
    match Op.ofCode op with
    | none => .error (.reservedOp op)
    | some o =>
      match decodeOperands o r with
      | none => .error .truncated
      | some x => .ok x

/-- The header of a candidate frame (R70, R73, R74). -/
def decodeFrame : List Byte → Except DecodeError (Instr × List Byte)
  | b0 :: b1 :: ver :: cmd :: h :: l :: r =>
    if b0 = Config.sync1 ∧ b1 = Config.sync2 then .ok (.wireFrame ver cmd (be16 h l), r) else .error .noSync
  | _ => .error .truncated

/-- The record pattern of a type (R85). -/
def recordInstr (ty : DpType) (id : Byte) (len : Half) (rest : List Byte) : Instr :=
  match ty with
  | .raw => .wireDpRaw id len rest
  | .bool => .wireDpBool id len rest
  | .value => .wireDpValue id len rest
  | .string => .wireDpString id len rest
  | .enum => .wireDpEnum id len rest
  | .bitmap => .wireDpBitmap id len rest

/-- A DP record from the front of an operand (R76, R77); the whole operand is one pattern, since bytes behind the record
are tolerated (R79). -/
def decodeRecord : List Byte → Except DecodeError (Instr × List Byte)
  | id :: ty :: h :: l :: r =>
    match DpType.ofCode ty with
    | none => .error (.reservedType ty)
    | some t => .ok (recordInstr t id (be16 h l) r, [])
  | _ => .error .truncated

/-- The decoder of each format. -/
def decodeAs : Format → List Byte → Except DecodeError (Instr × List Byte)
  | .opRequest => decodeRequest
  | .frame => decodeFrame
  | .dpRecord => decodeRecord

/-! ### Encoder -/

def Instr.format : Instr → Format
  | .reset => .opRequest
  | .rxReset => .opRequest
  | .rxPush _ => .opRequest
  | .rxScan => .opRequest
  | .rxPass => .opRequest
  | .txFrame _ _ _ => .opRequest
  | .dpSetRaw _ _ => .opRequest
  | .dpSetBool _ _ => .opRequest
  | .dpSetValue _ _ => .opRequest
  | .dpSetString _ _ => .opRequest
  | .dpSetEnum _ _ => .opRequest
  | .dpSetBitmap _ _ => .opRequest
  | .dpEnc => .opRequest
  | .dpDec _ => .opRequest
  | .wireFrame _ _ _ => .frame
  | .wireDpRaw _ _ _ => .dpRecord
  | .wireDpBool _ _ _ => .dpRecord
  | .wireDpValue _ _ _ => .dpRecord
  | .wireDpString _ _ _ => .dpRecord
  | .wireDpEnum _ _ _ => .dpRecord
  | .wireDpBitmap _ _ _ => .dpRecord

/-- The six header bytes of a frame (R70). -/
def frameHeader (ver cmd : Byte) (len : Half) : List Byte :=
  [Config.sync1, Config.sync2, ver, cmd, hi8 len, lo8 len]

/-- A record: four header bytes (R76), then `rest`. -/
def recordBytes (id : Byte) (ty : DpType) (len : Half) (rest : List Byte) : List Byte :=
  id :: ty.code :: hi8 len :: lo8 len :: rest

/-- The bytes of an instruction in its own format. -/
def encode : Instr → List Byte
  | .reset => [Op.reset.code]
  | .rxReset => [Op.rxReset.code]
  | .rxPush b => [Op.rxPush.code, b]
  | .rxScan => [Op.rxScan.code]
  | .rxPass => [Op.rxPass.code]
  | .txFrame ver cmd p => Op.txFrame.code :: ver :: cmd :: encodeString p
  | .dpSetRaw id s => Op.dpSetRaw.code :: id :: encodeString s
  | .dpSetBool id t => [Op.dpSetBool.code, id, encodeBit t]
  | .dpSetValue id v => Op.dpSetValue.code :: id :: be32 v
  | .dpSetString id s => Op.dpSetString.code :: id :: encodeString s
  | .dpSetEnum id e => [Op.dpSetEnum.code, id, e]
  | .dpSetBitmap id s => Op.dpSetBitmap.code :: id :: encodeString s
  | .dpEnc => [Op.dpEnc.code]
  | .dpDec s => Op.dpDec.code :: encodeString s
  | .wireFrame ver cmd len => frameHeader ver cmd len
  | .wireDpRaw id len rest => recordBytes id .raw len rest
  | .wireDpBool id len rest => recordBytes id .bool len rest
  | .wireDpValue id len rest => recordBytes id .value len rest
  | .wireDpString id len rest => recordBytes id .string len rest
  | .wireDpEnum id len rest => recordBytes id .enum len rest
  | .wireDpBitmap id len rest => recordBytes id .bitmap len rest

/-! ### The table's words (log entry 11) -/

/-- Byte `k` of a word, counted from its least significant byte. -/
def wordByte (w k : Nat) : Byte := BitVec.ofNat 8 (w >>> (8 * k))

/-- Which of the table's formats a row of `nbits` bits belongs to: 8 an operation request, 16 or 48 a frame (the two
sync bytes, or the six header bytes), 24 or 32 a record (the header word up to its type byte, or all of it). -/
def tableFormat (nbits : Nat) : Format :=
  if nbits = 16 ∨ nbits = 48 then .frame
  else if nbits = 24 ∨ nbits = 32 then .dpRecord
  else .opRequest

/-- The bytes of a table word, first byte first, with operand bytes of zeros behind them. The table takes a frame's two
sync bytes as one big-endian 16-bit word and a record's four header bytes as one big-endian 32-bit word. -/
def tableBytes (nbits w : Nat) : List Byte :=
  match tableFormat nbits with
  | .frame =>
    let hdr :=
      if w >>> 32 = 0x55AA then (List.range 6).map (fun k => wordByte w (5 - k))
      else [wordByte w 1, wordByte w 0, wordByte w 2, wordByte w 3, wordByte w 4, wordByte w 5]
    hdr ++ List.replicate (256 * (hdr.getD 4 0).toNat + (hdr.getD 5 0).toNat + 1) 0
  | .dpRecord =>
    [wordByte w 3, wordByte w 2, wordByte w 1, wordByte w 0] ++ List.replicate (w % 65536) 0
  | .opRequest => (List.range (nbits / 8)).map (wordByte w) ++ List.replicate 5 0

/-- The instruction the decoder reads from a table word of `nbits` bits. -/
def decodeTableWord (nbits w : Nat) : Option Instr :=
  match decodeAs (tableFormat nbits) (tableBytes nbits w) with
  | .ok (i, _) => some i
  | .error _ => none

end Sys2Proof
end

