-- ==== Sys2Proof/Machine/State.lean ====
section
/-! DEFINITION. The state: the three units of 10_state.md R20 with disjoint state (R2), the record of the environment
that a run is observed through (R26, R42, R55, R247), and the model's own fields (the open parameters, the counter of
free values). All of it plain data. -/
namespace Sys2Proof.Machine

/-- The status codes of 60_exceptions.md R200; their numbers are `Status.code`. -/
inductive Status where
  | ok
  | transportReadError
  | transportWriteError
  | checksumError
  | malformedFrame
  | malformedDP
  | txTooLong
  | dpInvalid
  deriving DecidableEq, Repr, Inhabited

/-- The six outcomes of `RX.SCAN` (40_rx_frame_parser.md R103). -/
inductive ScanOutcome where
  | waitHdr
  | drop
  | tooLong
  | waitBody
  | badSum
  | dispatch
  deriving DecidableEq, Repr, Inhabited

/-- A byte buffer (20_memory.md R50): index and byte, indices strictly rising, no entry equal to what an unlisted index
reads as (`Memory.wf`). -/
abbrev Memory := List Host.Cell

/-- The RX unit: `RXBUF`, `RXCNT`, `RXSTAT` (R22 to R24). -/
structure RxUnit where
  buf : Memory
  cnt : Nat
  stat : Status
  deriving DecidableEq, Repr

/-- The TX unit: `TXBUF`, `TXLEN`, `TXSENT`, `TXSTAT` (R28 to R31). -/
structure TxUnit where
  buf : Memory
  len : Nat
  sent : Nat
  stat : Status
  deriving DecidableEq, Repr

/-- The DP unit: `DP.id`, `DP.type`, `DP.len`, `DP.val`, `DP_VALID`, `DPSTAT` (R32 to R38). -/
structure DpUnit where
  id : Byte
  type : DpType
  len : Half
  val : DpVal
  valid : Bool
  stat : Status
  deriving DecidableEq, Repr

/-- An answer of `read_byte()` (20_memory.md R56). -/
inductive ReadAnswer where
  | byte (b : Byte)
  | noData
  | error
  deriving DecidableEq, Repr

/-- An answer of `write_byte(b)` (R57). -/
inductive WriteAnswer where
  | ok
  | error
  deriving DecidableEq, Repr

/-- The frame-out event `FRAME(ver, cmd, len, payload)` of R26. -/
structure FrameEvent where
  ver : Byte
  cmd : Byte
  len : Half
  payload : List Byte
  deriving DecidableEq, Repr

/-- What an operation returns to the requester (30_encoding.md R80, column "result"). -/
inductive Response where
  /-- A status alone. -/
  | status (st : Status)
  /-- `RX.SCAN`: the outcome and the status. -/
  | scan (o : ScanOutcome) (st : Status)
  /-- `DP.ENC` with status `OK`: the record. -/
  | encoded (bytes : List Byte)
  /-- `DP.DEC` with status `OK`: the consumed count. -/
  | decoded (consumed : Nat)
  deriving DecidableEq, Repr

/-- The environment (R42, R55, R58, R247): no state of the block, and all that a run lets one observe beside it. -/
structure Env where
  /-- The request port: the bytes of the requests not yet taken, oldest first (log entry 10). -/
  port : List Byte
  /-- The answers `read_byte` will give, first one first; after the last, `NoData` (R55). -/
  rxIn : List ReadAnswer
  /-- The answers `write_byte` will give, first one first; after the last, `Ok` (log entry 7). -/
  txAns : List WriteAnswer
  /-- `TXLOG`: the bytes `write_byte` accepted, in call order (R55, R57). -/
  txlog : List Byte
  /-- The frame-out events in emission order (R26). -/
  events : List FrameEvent
  /-- What each request returned, in request order (log entry 8). -/
  responses : List Response
  deriving DecidableEq, Repr

/-- The machine. -/
structure State where
  /-- The open parameters of 00_scope.md R5, written by nothing (log entry 1). -/
  params : Params
  rx : RxUnit
  tx : TxUnit
  dp : DpUnit
  env : Env
  /-- How many times the free values of `Config` have been drawn; the model's own (log entry 5). -/
  draws : Nat
  deriving DecidableEq, Repr

/-- Why a step stops with a fault. Every error the spec describes is a status code and a next state (R210), so no
instruction faults. -/
inductive Fault where
  /-- Raised by `step` alone: the request port ends inside a request, so there is no request to run (log entry 9).
  Safe: the model stops where the block would not have been asked anything. -/
  | truncatedRequest
  deriving DecidableEq, Repr

/-- Why a step is refused. -/
inductive Refusal where
  /-- Raised by a refused arm of `exec` for an instruction without a meaning yet. No arm is refused. Safe. -/
  | notModelled (mnemonic : String)
  /-- Raised by `step` alone: the operation-select code is none of the fourteen, and 30_encoding.md R82 gives such a
  request no meaning. Safe. -/
  | reservedOp (op : Byte)
  deriving DecidableEq, Repr

/-- The state after the block reset (R44), with the environment empty. The spec leaves `RXBUF`, `TXBUF` and the DP
fields unspecified: nothing listed, and the values of log entry 6; the parameters are those of log entry 1. -/
def State.reset : State :=
  { params := Params.suggested
    rx := { buf := [], cnt := 0, stat := .ok }
    tx := { buf := [], len := 0, sent := 0, stat := .ok }
    dp := { id := 0, type := .raw, len := 0, val := .raw [], valid := false, stat := .ok }
    env := { port := [], rxIn := [], txAns := [], txlog := [], events := [], responses := [] }
    draws := 0 }

end Sys2Proof.Machine
end

