-- ==== Sys2Proof/Machine/Flags.lean ====
section
/-! DEFINITION. Status: the code numbers of 60_exceptions.md R200, the status each outcome of `RX.SCAN` carries (R103),
and `raise` (00_scope.md R9), the block's only way of reporting an error: the unit's status register takes the code and
everything written before stays written. Nothing is saved and no control is transferred (R210, R215). -/
namespace Sys2Proof.Machine

/-- The three-bit codes of R200. -/
def Status.code : Status → BitVec 3
  | .ok => 0
  | .transportReadError => 1
  | .transportWriteError => 2
  | .checksumError => 3
  | .malformedFrame => 4
  | .malformedDP => 5
  | .txTooLong => 6
  | .dpInvalid => 7

/-- The status column of R103. -/
def ScanOutcome.status : ScanOutcome → Status
  | .waitHdr => .ok
  | .drop => .ok
  | .tooLong => .malformedFrame
  | .waitBody => .ok
  | .badSum => .checksumError
  | .dispatch => .ok

/-- The outcomes after which the parse loop of `RX.PASS` goes on (R106). -/
def ScanOutcome.continues : ScanOutcome → Bool
  | .waitHdr => false
  | .drop => true
  | .tooLong => false
  | .waitBody => false
  | .badSum => false
  | .dispatch => true

/-- `raise` and `return OK` of an RX operation: `RXSTAT` takes the code (R24). -/
def RxUnit.raise (st : Status) (r : RxUnit) : RxUnit := { r with stat := st }
/-- The same for `TXSTAT` (R31). -/
def TxUnit.raise (st : Status) (t : TxUnit) : TxUnit := { t with stat := st }
/-- The same for `DPSTAT` (R38). -/
def DpUnit.raise (st : Status) (d : DpUnit) : DpUnit := { d with stat := st }

/-- The status an operation returned. -/
def Response.returned : Response → Status
  | .status st => st
  | .scan _ st => st
  | .encoded _ => .ok
  | .decoded _ => .ok

end Sys2Proof.Machine
end

