-- ==== Sys2Proof/Machine/Operands.lean ====
section
/-! DEFINITION. Pure functions on byte strings: the checksum (00_scope.md R8, 30_encoding.md R72), the frame a payload is
wrapped in (41_tx_frame_assembler.md R130), what the setters keep of an operand (42_dp_setters.md R157), the record of a
data point (43_dp_codec.md R170) and how a record's payload is read (30_encoding.md R78, 43_dp_codec.md R173 to R176). -/
namespace Sys2Proof.Machine

/-! ### Frames -/

/-- The sum of bytes modulo 256 (R8, R72). -/
def sum8 : List Byte → Byte
  | [] => 0
  | b :: bs => b + sum8 bs

/-- `frame_bytes(ver, cmd, P)` (R130). -/
def frameBytes (ver cmd : Byte) (p : List Byte) : List Byte :=
  frameHeader ver cmd (BitVec.ofNat 16 p.length) ++ p
    ++ [sum8 (frameHeader ver cmd (BitVec.ofNat 16 p.length) ++ p)]

/-- The length of a frame that declares `len` payload bytes (R71). -/
def frameLen (len : Half) : Nat := Config.hdrLen + len.toNat + 1

/-! ### What a setter keeps (R157) -/

/-- The bytes before the first 0x00, or all of them (R154, R173). -/
def untilNul (s : List Byte) : List Byte := s.takeWhile (fun b => b != 0)

def keepRaw (b : List Byte) : List Byte := b.take Config.dpCap
def keepBitmap (b : List Byte) : List Byte := b.take Config.bitmapCap
def keepString (s : List Byte) : List Byte := (untilNul s).take Config.strMax

/-! ### The encoder (R170) -/

/-- The declared length `L` of R170; `len` is `DP.len`. The case is taken on the variant of `DP.val`, which is the one
`DP.type` names in every state R39 allows (log entry 14). -/
def encLen (len : Half) : DpVal → Half
  | .raw _ => len
  | .bool _ => 1
  | .value _ => 4
  | .str s => BitVec.ofNat 16 s.length
  | .enum _ => 1
  | .bitmap _ => len

/-- The payload `pl` of R170. -/
def encPayload : DpVal → List Byte
  | .raw b => b
  | .bool t => if t then [0x01] else [0x00]
  | .value v => be32 v
  | .str s => s
  | .enum e => [e]
  | .bitmap b => b

/-- `enc(id, ty, len, val)` (R170). -/
def enc (id : Byte) (ty : DpType) (len : Half) (val : DpVal) : List Byte :=
  recordBytes id ty (encLen len val) (encPayload val)

/-! ### The decoder (R173) -/

/-- `stage`: 64 bytes of 0x00 with the payload at the front (R173). -/
def stage (payload : List Byte) : List Byte :=
  payload ++ List.replicate (Config.dpCap - payload.length) (0 : Byte)

def readRaw (len : Nat) (st : List Byte) : DpVal := .raw (st.take len)
/-- Any non-zero first byte is true (R174). -/
def readBool (st : List Byte) : DpVal := .bool (st.getD 0 0 != 0)
def readValue (st : List Byte) : DpVal := .value (s32 (st.getD 0 0) (st.getD 1 0) (st.getD 2 0) (st.getD 3 0))
/-- At most 63 bytes, ending before the first 0x00 (R176). -/
def readString (len : Nat) (st : List Byte) : DpVal := .str (untilNul (st.take (min len Config.strMax)))
def readEnum (st : List Byte) : DpVal := .enum (st.getD 0 0)
def readBitmap (len : Nat) (st : List Byte) : DpVal := .bitmap (st.take len)

/-- "type-specific reinterpretation" of a staged payload of declared length `len` (R173). -/
def readPayload (ty : DpType) (len : Nat) (st : List Byte) : DpVal :=
  match ty with
  | .raw => readRaw len st
  | .bool => readBool st
  | .value => readValue st
  | .string => readString len st
  | .enum => readEnum st
  | .bitmap => readBitmap len st

/-! ### The data point's variants -/

end Sys2Proof.Machine

namespace Sys2Proof

/-- The type a variant belongs to (R36). -/
def DpVal.type : DpVal → DpType
  | .raw _ => .raw
  | .bool _ => .bool
  | .value _ => .value
  | .str _ => .string
  | .enum _ => .enum
  | .bitmap _ => .bitmap

/-- A free value of `DP.val` cut to what the register can hold (R36; log entry 17). -/
def DpVal.fit : DpVal → DpVal
  | .raw b => .raw (Machine.keepRaw b)
  | .bool t => .bool t
  | .value v => .value v
  | .str s => .str (Machine.keepString s)
  | .enum e => .enum e
  | .bitmap b => .bitmap (b.take Config.dpCap)

end Sys2Proof
end

