-- ==== Sys2Proof/Machine/Ops.lean ====
section
/-! DEFINITION. The named operations the meanings are written over: buffer access (20_memory.md R50 to R63), the transport
primitives (R56, R57), one append and one parsing step of the RX unit, the transmission of the TX unit, and loading,
failing and clearing of the DP register. -/
namespace Sys2Proof.Machine

/-! ### Buffers -/

/-- What an index that nothing has written reads as. The spec gives it no value and no operation of the block reads one
(R22, R28); DESIGN CHOICE (log entry 4). -/
def unwritten : Byte := 0

/-- `MemRead(space, a, 1)` (R9). -/
def Memory.read : Memory → Nat → Byte
  | [], _ => unwritten
  | (k, b) :: m, a => if k = a then b else Memory.read m a

/-- The canonical form with one more cell in front. -/
def Memory.cons (a : Nat) (b : Byte) (m : Memory) : Memory := if b = unwritten then m else (a, b) :: m

/-- `MemWrite(space, a, 1, b)` (R9), keeping the canonical form. -/
def Memory.write : Memory → Nat → Byte → Memory
  | [], a, b => Memory.cons a b []
  | (k, c) :: m, a, b =>
    if a < k then Memory.cons a b ((k, c) :: m)
    else if a = k then Memory.cons a b m
    else (k, c) :: Memory.write m a b

/-- `MemRead(space, a, n)` (R9). -/
def Memory.readRange (m : Memory) : Nat → Nat → List Byte
  | _, 0 => []
  | a, n + 1 => Memory.read m a :: Memory.readRange m (a + 1) n

/-- `MemWrite(space, a, n, v)` with `n` the length of `v` (R9). -/
def Memory.writeRange : Memory → Nat → List Byte → Memory
  | m, _, [] => m
  | m, a, b :: bs => Memory.writeRange (Memory.write m a b) (a + 1) bs

/-- Every cell's index is at least `lo`, the indices rise strictly, and no cell holds `unwritten`. -/
def Memory.wfFrom : Nat → Memory → Bool
  | _, [] => true
  | lo, (k, b) :: m => decide (lo ≤ k) && (b != unwritten) && Memory.wfFrom (k + 1) m

/-- The canonical form. -/
def Memory.wf (m : Memory) : Bool := Memory.wfFrom 0 m

/-- Every listed index is below `cap`: nothing has been written outside the buffer (R62). -/
def Memory.below (cap : Nat) (m : Memory) : Bool := m.all fun c => decide (c.1 < cap)

/-! ### Requester and consumer -/

/-- The operation's result goes to the requester. -/
def State.respond (r : Response) (s : State) : State :=
  { s with env := { s.env with responses := s.env.responses ++ [r] } }

/-- `emit FRAME(...)` for each event, in order (R26). -/
def State.emit (es : List FrameEvent) (s : State) : State :=
  { s with env := { s.env with events := s.env.events ++ es } }

/-! ### RX unit -/

/-- `RXBUF[0..RXCNT-1]`, oldest first (R23). -/
def RxUnit.held (r : RxUnit) : List Byte := Memory.readRange r.buf 0 r.cnt

/-- `drop_front(k)` (R63). -/
def RxUnit.dropFront (k : Nat) (r : RxUnit) : RxUnit :=
  { r with buf := Memory.writeRange r.buf 0 (Memory.readRange r.buf k (r.cnt - k)), cnt := r.cnt - k }

/-- The receive buffer emptied: bytes stay where they were and become unreachable (R22). -/
def RxUnit.clear (r : RxUnit) : RxUnit := { r with cnt := 0 }

/-- `RX.PUSH b` on the unit (R101). The rule's test is `RXCNT = RX_CAP`; no state of the block has `RXCNT` above it
(R23, log entry 12). -/
def RxUnit.push (cap : Nat) (b : Byte) (r : RxUnit) : RxUnit :=
  if cap ≤ r.cnt then r.clear.raise .malformedFrame
  else { r with buf := Memory.write r.buf r.cnt b, cnt := r.cnt + 1, stat := .ok }

/-- What one step of parsing did. -/
structure ScanResult where
  unit : RxUnit
  outcome : ScanOutcome
  events : List FrameEvent
  deriving DecidableEq, Repr

/-- A checksum mismatch: the buffer per `CSUM_POLICY` (R104). -/
def RxUnit.badSum (p : Params) (r : RxUnit) : RxUnit :=
  match p.csumPolicy with
  | .hold => r.raise .checksumError
  | .drop1 => (r.dropFront 1).raise .checksumError

/-- R102 from the length extraction on, for the candidate whose header holds `ver`, `cmd` and `len`. -/
def RxUnit.candidate (p : Params) (ver cmd : Byte) (len : Half) (r : RxUnit) : ScanResult :=
  if p.rxCap < frameLen len then
    { unit := r.clear.raise .malformedFrame, outcome := .tooLong, events := [] }
  else if r.cnt < frameLen len then
    { unit := r.raise .ok, outcome := .waitBody, events := [] }
  else if sum8 (Memory.readRange r.buf 0 (Config.hdrLen + len.toNat))
      ≠ Memory.read r.buf (Config.hdrLen + len.toNat) then
    { unit := r.badSum p, outcome := .badSum, events := [] }
  else
    { unit := (r.dropFront (frameLen len)).raise .ok
      outcome := .dispatch
      events := [{ ver := ver, cmd := cmd, len := len
                   payload := Memory.readRange r.buf Config.hdrLen len.toNat }] }

/-- One step of parsing (R102). -/
def RxUnit.scan (p : Params) (r : RxUnit) : ScanResult :=
  if r.cnt < Config.hdrLen then
    { unit := r.raise .ok, outcome := .waitHdr, events := [] }
  else if Memory.read r.buf 0 ≠ Config.sync1 ∨ Memory.read r.buf 1 ≠ Config.sync2 then
    { unit := (r.dropFront 1).raise .ok, outcome := .drop, events := [] }
  else
    r.candidate p (Memory.read r.buf 2) (Memory.read r.buf 3)
      (be16 (Memory.read r.buf 4) (Memory.read r.buf 5))

/-- The header of the candidate the RX unit holds: the first six bytes, when there are six (R71). -/
def RxUnit.header (r : RxUnit) : List Byte :=
  if r.cnt < Config.hdrLen then [] else Memory.readRange r.buf 0 Config.hdrLen

/-- A step of parsing carried over to the state. -/
def State.scanned (q : ScanResult) (s : State) : State :=
  State.respond (.scan q.outcome q.outcome.status) (State.emit q.events { s with rx := q.unit })

/-- What phase 1 of a pass leaves: the unit, the answers not yet asked for, and the error that ended it. -/
structure DrainResult where
  unit : RxUnit
  rest : List ReadAnswer
  error : Option Status
  deriving DecidableEq, Repr

/-- Phase 1 of `RX.PASS` (R106): `read_byte` until `NoData`, an error or an overflow. -/
def RxUnit.drain (cap : Nat) : List ReadAnswer → RxUnit → DrainResult
  | [], r => { unit := r, rest := [], error := none }
  | .noData :: rest, r => { unit := r, rest := rest, error := none }
  | .error :: rest, r =>
    { unit := r.raise .transportReadError, rest := rest, error := some .transportReadError }
  | .byte b :: rest, r =>
    match (r.push cap b).stat with
    | .ok => RxUnit.drain cap rest (r.push cap b)
    | st => { unit := r.push cap b, rest := rest, error := some st }

/-- Phase 2 of `RX.PASS` (R106), at most `n + 1` steps of parsing; `n = RXCNT` is enough (R107, log entry 16). -/
def RxUnit.parse (p : Params) : Nat → RxUnit → ScanResult
  | 0, r => r.scan p
  | n + 1, r =>
    if (r.scan p).outcome.continues then
      { RxUnit.parse p n (r.scan p).unit with
        events := (r.scan p).events ++ (RxUnit.parse p n (r.scan p).unit).events }
    else r.scan p

/-! ### TX unit -/

/-- What the loop of `TX.FRAME` did: the bytes accepted, the answers not yet asked for, whether a write failed. -/
structure SendResult where
  sent : List Byte
  rest : List WriteAnswer
  failed : Bool
  deriving DecidableEq, Repr

/-- The loop of R131: one `write_byte` a byte, in order, ending at the first `Error`. -/
def send : List Byte → List WriteAnswer → SendResult
  | [], as => { sent := [], rest := as, failed := false }
  | b :: bs, [] => { sent := b :: bs, rest := [], failed := false }
  | b :: bs, .ok :: as => { send bs as with sent := b :: (send bs as).sent }
  | _ :: _, .error :: as => { sent := [], rest := as, failed := true }

/-- `TX.FRAME` when the payload does not fit (R131, R206). -/
def State.txTooLong (s : State) : State :=
  State.respond (.status .txTooLong) { s with tx := { s.tx with len := 0, sent := 0, stat := .txTooLong } }

/-- `TX.FRAME` with the assembled frame `f` (R131): into `TXBUF`, then onto the transport. -/
def State.transmit (f : List Byte) (s : State) : State :=
  let q := send f s.env.txAns
  let st := if q.failed then Status.transportWriteError else .ok
  State.respond (.status st)
    { s with
      tx := { buf := Memory.writeRange s.tx.buf 0 f, len := f.length, sent := q.sent.length, stat := st }
      env := { s.env with txAns := q.rest, txlog := s.env.txlog ++ q.sent } }

/-! ### DP unit -/

/-- The DP register written whole (R150, R173). -/
def State.dpLoad (id : Byte) (ty : DpType) (len : Half) (val : DpVal) (r : Response) (s : State) : State :=
  State.respond r { s with dp := { id := id, type := ty, len := len, val := val, valid := true, stat := .ok } }

/-- The DP register holds no data point: its fields are unspecified (R37), so each takes a free value (log entry 5). -/
def DpUnit.unspecified (n : Nat) (st : Status) : DpUnit :=
  { id := Config.freeDpId n
    type := Config.freeDpType n
    len := Config.freeDpLen n
    val := (Config.freeDpVal n).fit
    valid := false
    stat := st }

/-- `fail` of R173. -/
def State.dpFail (s : State) : State :=
  State.respond (.status .malformedDP)
    { s with dp := DpUnit.unspecified s.draws .malformedDP, draws := s.draws + 1 }

/-- R173 behind the type test: a record header with declared length `len`, and `rest` behind it. -/
def State.dpRecord (id : Byte) (ty : DpType) (len : Half) (rest : List Byte) (s : State) : State :=
  if Config.dpCap < len.toNat then s.dpFail
  else if rest.length < len.toNat then s.dpFail
  else
    s.dpLoad id ty len (readPayload ty len.toNat (stage (rest.take len.toNat))) (.decoded (4 + len.toNat))

/-- R173 on an operand. -/
def State.dpDecode (bs : List Byte) (s : State) : State :=
  match bs with
  | id :: ty :: h :: l :: rest =>
    match DpType.ofCode ty with
    | none => s.dpFail
    | some t => s.dpRecord id t (be16 h l) rest
  | _ => s.dpFail

end Sys2Proof.Machine
end

