-- ==== Sys2Proof/Machine/DpCodec.lean ====
section
/-! DEFINITION. The DP unit's encoder and decoder, 43_dp_codec.md. -/
namespace Sys2Proof.Machine

/-- R171: the record goes to the requester and is not kept in the block. -/
def execDpEnc (s : State) : Host.Outcome State Fault Refusal :=
  if s.dp.valid then
    .next (State.respond (.encoded (enc s.dp.id s.dp.type s.dp.len s.dp.val)) { s with dp := s.dp.raise .ok })
  else .next (State.respond (.status .dpInvalid) { s with dp := s.dp.raise .dpInvalid })

/-- R173. -/
def execDpDec (bs : List Byte) (s : State) : Host.Outcome State Fault Refusal :=
  .next (s.dpDecode bs)

end Sys2Proof.Machine
end

