-- ==== Sys2Proof/Machine/DpSet.lean ====
section
/-! DEFINITION. The DP unit's six setters, 42_dp_setters.md R150 to R157. -/
namespace Sys2Proof.Machine

/-- R151. -/
def execDpSetRaw (id : Byte) (b : List Byte) (s : State) : Host.Outcome State Fault Refusal :=
  .next (s.dpLoad id .raw (BitVec.ofNat 16 (keepRaw b).length) (.raw (keepRaw b)) (.status .ok))

/-- R152. -/
def execDpSetBool (id : Byte) (t : Bool) (s : State) : Host.Outcome State Fault Refusal :=
  .next (s.dpLoad id .bool 1 (.bool t) (.status .ok))

/-- R153. -/
def execDpSetValue (id : Byte) (v : Word) (s : State) : Host.Outcome State Fault Refusal :=
  .next (s.dpLoad id .value 4 (.value v) (.status .ok))

/-- R154. -/
def execDpSetString (id : Byte) (b : List Byte) (s : State) : Host.Outcome State Fault Refusal :=
  .next (s.dpLoad id .string (BitVec.ofNat 16 (keepString b).length) (.str (keepString b)) (.status .ok))

/-- R155. -/
def execDpSetEnum (id : Byte) (e : Byte) (s : State) : Host.Outcome State Fault Refusal :=
  .next (s.dpLoad id .enum 1 (.enum e) (.status .ok))

/-- R156. -/
def execDpSetBitmap (id : Byte) (b : List Byte) (s : State) : Host.Outcome State Fault Refusal :=
  .next (s.dpLoad id .bitmap (BitVec.ofNat 16 (keepBitmap b).length) (.bitmap (keepBitmap b)) (.status .ok))

end Sys2Proof.Machine
end

