-- ==== Sys2Proof/Machine/Reset.lean ====
section
/-! DEFINITION. `RESET` (70_reset_and_hazards.md R230): the whole block into the state of 10_state.md R44. -/
namespace Sys2Proof.Machine

/-- R230. Buffer contents stay and become unreachable; the DP fields become unspecified (R44); the transport, its record
and the frame-out events are not touched (R231); nothing is returned. -/
def execReset (s : State) : Host.Outcome State Fault Refusal :=
  .next { s with
    rx := s.rx.clear.raise .ok
    tx := { s.tx with len := 0, sent := 0, stat := .ok }
    dp := DpUnit.unspecified s.draws .ok
    draws := s.draws + 1 }

end Sys2Proof.Machine
end

