-- ==== Sys2Proof/Machine/Rx.lean ====
section
/-! DEFINITION. The RX unit's operations, 40_rx_frame_parser.md. -/
namespace Sys2Proof.Machine

/-- R100. -/
def execRxReset (s : State) : Host.Outcome State Fault Refusal :=
  .next (State.respond (.status .ok) { s with rx := s.rx.clear.raise .ok })

/-- R101. -/
def execRxPush (b : Byte) (s : State) : Host.Outcome State Fault Refusal :=
  .next (State.respond (.status (s.rx.push s.params.rxCap b).stat) { s with rx := s.rx.push s.params.rxCap b })

/-- R102. -/
def execRxScan (s : State) : Host.Outcome State Fault Refusal :=
  .next (s.scanned (s.rx.scan s.params))

/-- R106: drain the transport, then, unless that ended in an error, parse until nothing more can be parsed. -/
def execRxPass (s : State) : Host.Outcome State Fault Refusal :=
  let d := s.rx.drain s.params.rxCap s.env.rxIn
  let s' := { s with rx := d.unit, env := { s.env with rxIn := d.rest } }
  match d.error with
  | some st => .next (State.respond (.status st) s')
  | none =>
    let q := d.unit.parse s.params d.unit.cnt
    .next (State.respond (.status q.outcome.status) (State.emit q.events { s' with rx := q.unit }))

end Sys2Proof.Machine
end

