-- ==== Sys2Proof/Machine/Tx.lean ====
section
/-! DEFINITION. The TX unit's operation, 41_tx_frame_assembler.md. -/
namespace Sys2Proof.Machine

/-- R131. `n > TX_CAP - 7` is written without the subtraction. -/
def execTxFrame (ver cmd : Byte) (p : List Byte) (s : State) : Host.Outcome State Fault Refusal :=
  if s.params.txCap < p.length + 7 then .next s.txTooLong
  else .next (s.transmit (frameBytes ver cmd p))

end Sys2Proof.Machine
end

