-- ==== Sys2Proof/Machine/Wire.lean ====
section
/-! DEFINITION. The wire patterns of 30_encoding.md R85 as instructions: what the unit that recognises a pattern does with
it. `RX.SCAN` recognises `WIRE.FRAME` at index 0 of `RXBUF` (R102); `DP.DEC` recognises the six records in its operand
(R173). Machine/Fetch.lean hands a request for one of those two operations to the pattern it meets (log entry 3). -/
namespace Sys2Proof.Machine

/-- `WIRE.FRAME` (R70 with R102): the candidate with this header, leading `RXBUF`. A header that does not lead the buffer
is no candidate and nothing happens (R73, log entry 3). -/
def execWireFrame (ver cmd : Byte) (len : Half) (s : State) : Host.Outcome State Fault Refusal :=
  if s.rx.header = frameHeader ver cmd len then
    .next (s.scanned (s.rx.candidate s.params ver cmd len))
  else .next s

/-- `WIRE.DP.RAW` (R78 with R173). -/
def execWireDpRaw (id : Byte) (len : Half) (rest : List Byte) (s : State) : Host.Outcome State Fault Refusal :=
  .next (s.dpRecord id .raw len rest)

/-- `WIRE.DP.BOOL` (R78 with R173, R174). -/
def execWireDpBool (id : Byte) (len : Half) (rest : List Byte) (s : State) : Host.Outcome State Fault Refusal :=
  .next (s.dpRecord id .bool len rest)

/-- `WIRE.DP.VALUE` (R78 with R173, R175). -/
def execWireDpValue (id : Byte) (len : Half) (rest : List Byte) (s : State) : Host.Outcome State Fault Refusal :=
  .next (s.dpRecord id .value len rest)

/-- `WIRE.DP.STRING` (R78 with R173, R176). -/
def execWireDpString (id : Byte) (len : Half) (rest : List Byte) (s : State) : Host.Outcome State Fault Refusal :=
  .next (s.dpRecord id .string len rest)

/-- `WIRE.DP.ENUM` (R78 with R173, R174). -/
def execWireDpEnum (id : Byte) (len : Half) (rest : List Byte) (s : State) : Host.Outcome State Fault Refusal :=
  .next (s.dpRecord id .enum len rest)

/-- `WIRE.DP.BITMAP` (R78 with R173, R176). -/
def execWireDpBitmap (id : Byte) (len : Half) (rest : List Byte) (s : State) : Host.Outcome State Fault Refusal :=
  .next (s.dpRecord id .bitmap len rest)

end Sys2Proof.Machine
end

