-- ==== Sys2Proof/Machine/Dispatch.lean ====
section
/-! DEFINITION. One arm per instruction. -/
namespace Sys2Proof.Machine
open Sys2Proof

def exec (i : Instr) (s : State) : Host.Outcome State Fault Refusal :=
  match i with
  | .reset => Sys2Proof.Machine.execReset s
  | .rxReset => Sys2Proof.Machine.execRxReset s
  | .rxPush b => Sys2Proof.Machine.execRxPush b s
  | .rxScan => Sys2Proof.Machine.execRxScan s
  | .rxPass => Sys2Proof.Machine.execRxPass s
  | .txFrame ver cmd p => Sys2Proof.Machine.execTxFrame ver cmd p s
  | .dpSetRaw id b => Sys2Proof.Machine.execDpSetRaw id b s
  | .dpSetBool id t => Sys2Proof.Machine.execDpSetBool id t s
  | .dpSetValue id v => Sys2Proof.Machine.execDpSetValue id v s
  | .dpSetString id b => Sys2Proof.Machine.execDpSetString id b s
  | .dpSetEnum id e => Sys2Proof.Machine.execDpSetEnum id e s
  | .dpSetBitmap id b => Sys2Proof.Machine.execDpSetBitmap id b s
  | .dpEnc => Sys2Proof.Machine.execDpEnc s
  | .dpDec b => Sys2Proof.Machine.execDpDec b s
  | .wireFrame ver cmd len => Sys2Proof.Machine.execWireFrame ver cmd len s
  | .wireDpRaw id len rest => Sys2Proof.Machine.execWireDpRaw id len rest s
  | .wireDpBool id len rest => Sys2Proof.Machine.execWireDpBool id len rest s
  | .wireDpValue id len rest => Sys2Proof.Machine.execWireDpValue id len rest s
  | .wireDpString id len rest => Sys2Proof.Machine.execWireDpString id len rest s
  | .wireDpEnum id len rest => Sys2Proof.Machine.execWireDpEnum id len rest s
  | .wireDpBitmap id len rest => Sys2Proof.Machine.execWireDpBitmap id len rest s

end Sys2Proof.Machine
end

