-- ==== Sys2Proof/Machine/Fetch.lean ====
section
/-! DEFINITION. Where the next instruction comes from. The block has no program counter and fetches nothing
(10_state.md R21); it is asked. The request port holds the requester's bytes; `RX.SCAN` and `DP.DEC` in turn read bytes
of their own, `RXBUF` and their operand, and run the wire pattern they recognise there (30_encoding.md R85, log
entry 3). -/
namespace Sys2Proof.Machine

/-- The instruction a decoder read, if it read one. -/
def decodedOr (i : Instr) (d : Except DecodeError (Instr × List Byte)) : Instr :=
  match d with
  | .ok x => x.1
  | .error _ => i

/-- The pattern a requested operation meets in the bytes it reads, or the operation itself. -/
def recognise (i : Instr) (s : State) : Instr :=
  match i with
  | .rxScan => decodedOr .rxScan (decodeFrame s.rx.header)
  | .dpDec bs => decodedOr (.dpDec bs) (decodeRecord bs)
  | i => i

/-- The state after the request has been taken from the port. -/
def State.take (rest : List Byte) (s : State) : State := { s with env := { s.env with port := rest } }

/-- `s` with the bytes `bs` waiting at the request port. -/
def State.withPort (bs : List Byte) (s : State) : State := { s with env := { s.env with port := bs } }

/-- `s` with the bytes `bs` held in `RXBUF`, as many as it has room for, oldest first. -/
def State.withHeld (bs : List Byte) (s : State) : State :=
  { s with rx := { s.rx with
      buf := Memory.writeRange s.rx.buf 0 (bs.take s.params.rxCap)
      cnt := (bs.take s.params.rxCap).length } }

/-- `s` with a table word (log entry 11) where its format is fetched from: a request at the port; a frame in `RXBUF` with
an `RX.SCAN` at the port; a record as the operand of a `DP.DEC` at the port. -/
def placeTableWord (s : State) (nbits w : Nat) : State :=
  match tableFormat nbits with
  | .opRequest => s.withPort (tableBytes nbits w)
  | .frame => (s.withHeld (tableBytes nbits w)).withPort (encode .rxScan)
  | .dpRecord => s.withPort (encode (.dpDec (tableBytes nbits w)))

end Sys2Proof.Machine
end

