-- ==== Sys2Proof/Machine/Step.lean ====
section
/-! DEFINITION. One step: the next request, run to completion (20_memory.md R58). -/
namespace Sys2Proof.Machine
open Sys2Proof

/-- With no request the block is idle and holds its state (10_state.md R21, 60_exceptions.md R214). A reserved code is
refused (30_encoding.md R82). Bytes that end inside a request are no request (log entry 9). -/
def step (s : State) : Host.Outcome State Fault Refusal :=
  match s.env.port with
  | [] => .next s
  | op :: bs =>
    match decodeRequest (op :: bs) with
    | .ok (i, rest) => exec (recognise i (s.take rest)) (s.take rest)
    | .error (.reservedOp c) => .refused (.reservedOp c)
    | .error _ => .fault .truncatedRequest

/-- `s` with a table word placed so that the very next step runs it (log entries 10 and 11). -/
def State.withFetchWord (s : State) (nbits w : Nat) : State := placeTableWord s nbits w

end Sys2Proof.Machine
end

