-- ==== Sys2Proof/Machine/Pseudo.lean ====
section
/-! DEFINITION. The pseudo-operations of 30_encoding.md R84, each by its fixed expansion into operations. -/
namespace Sys2Proof.Machine
open Sys2Proof

/-- The state an operation leaves; every operation of the block leaves one. -/
def after (i : Instr) (s : State) : State :=
  match exec i s with
  | .next t => t
  | .fault _ => s
  | .refused _ => s

/-- `RX.FEED [b0 ... bk]`: `RX.PUSH` of each byte, stopping after the first that does not return `OK`. -/
def rxFeed : List Byte → State → State
  | [], s => s
  | b :: bs, s =>
    if (after (.rxPush b) s).rx.stat = .ok then rxFeed bs (after (.rxPush b) s) else after (.rxPush b) s

/-- The parse loop goes on after this response (R84, R106). -/
def scanContinues : Option Response → Bool
  | some (.scan o _) => o.continues
  | _ => false

/-- At most `n + 1` times `RX.SCAN`, while the outcome is `DROP` or `DISPATCH`. -/
def rxScans : Nat → State → State
  | 0, s => after .rxScan s
  | n + 1, s =>
    if scanContinues (after .rxScan s).env.responses.getLast? then rxScans n (after .rxScan s) else after .rxScan s

/-- `RX.DRAIN`: `RXCNT + 1` scans are enough (R105). -/
def rxDrain (s : State) : State := rxScans s.rx.cnt s

/-- `TX.DP ver cmd`: `DP.ENC`, then, if that returned a record, `TX.FRAME` of it. -/
def txDp (ver cmd : Byte) (s : State) : State :=
  match (after .dpEnc s).env.responses.getLast? with
  | some (.encoded p) => after (.txFrame ver cmd p) (after .dpEnc s)
  | _ => after .dpEnc s

/-- `WIRE [..]`: the transport's receive list (20_memory.md R55). -/
def wire (answers : List ReadAnswer) (s : State) : State := { s with env := { s.env with rxIn := answers } }

end Sys2Proof.Machine
end

