-- ==== Sys2Proof/Machine/ReadBack.lean ====
section
/-! DEFINITION. The read-back interface of 10_state.md R41: what the requester sees of the block between operations,
without side effect. `RXBUF` is not part of it, nor is `TXBUF` from `TXLEN` on, nor a DP field while `DP_VALID = 0`. -/
namespace Sys2Proof.Machine

/-- The DP register as read back (R158): meaningful only while `DP_VALID = 1` (R37). -/
structure DataPoint where
  id : Byte
  type : DpType
  len : Half
  val : DpVal
  deriving DecidableEq, Repr

structure ReadBack where
  rxcnt : Nat
  rxstat : Status
  txlen : Nat
  txsent : Nat
  txstat : Status
  txbuf : List Byte
  dpValid : Bool
  dpstat : Status
  dp : Option DataPoint
  deriving DecidableEq, Repr

/-- `TXBUF[0..TXLEN-1]` (R28). -/
def TxUnit.frame (t : TxUnit) : List Byte := Memory.readRange t.buf 0 t.len

def DpUnit.dataPoint (d : DpUnit) : Option DataPoint :=
  if d.valid then some { id := d.id, type := d.type, len := d.len, val := d.val } else none

/-- R41. -/
def State.readBack (s : State) : ReadBack :=
  { rxcnt := s.rx.cnt
    rxstat := s.rx.stat
    txlen := s.tx.len
    txsent := s.tx.sent
    txstat := s.tx.stat
    txbuf := s.tx.frame
    dpValid := s.dp.valid
    dpstat := s.dp.stat
    dp := s.dp.dataPoint }

end Sys2Proof.Machine
end

