-- ==== Sys2Proof/Safety.lean ====
section
/-! DEFINITION. The terms claims use: the invariant every operation keeps (10_state.md R23, R25, R29, R30, R34, R36, R39,
20_memory.md R62), what of a state can be observed (R22, R28, R37, R41, R247), and which unit an instruction belongs to
(00_scope.md R2). -/
namespace Sys2Proof.Machine
open Sys2Proof

/-! ### The invariant -/

/-- The constraints of 00_scope.md R5. -/
abbrev Params.ok (p : Params) : Prop := 7 ≤ p.rxCap ∧ p.rxCap ≤ 65542 ∧ 7 ≤ p.txCap ∧ p.txCap ≤ 65542

/-- A byte string that is `frame_bytes` of its own version, command and payload (30_encoding.md R70 to R72). -/
def isFrame (f : List Byte) : Bool :=
  decide (7 ≤ f.length) && decide (f.length ≤ 65542)
    && decide (f = frameBytes (f.getD 2 0) (f.getD 3 0) ((f.drop 6).dropLast))

/-- R22 to R25, R62: the buffer in canonical form and written only below `RX_CAP`, `RXCNT ≤ RX_CAP`, `RXSTAT` one of
the four codes of R24. -/
abbrev RxUnit.ok (p : Params) (r : RxUnit) : Prop :=
  Memory.wf r.buf = true ∧ Memory.below p.rxCap r.buf = true ∧ r.cnt ≤ p.rxCap ∧
    r.stat ∈ [Status.ok, .transportReadError, .checksumError, .malformedFrame]

/-- R28 to R31, R62: the buffer in canonical form and written only below `TX_CAP`; `TXBUF[0..TXLEN-1]` a whole frame
unless `TXLEN = 0`; `TXSENT = TXLEN` with status `OK`, below it after a write failure. -/
abbrev TxUnit.ok (p : Params) (t : TxUnit) : Prop :=
  Memory.wf t.buf = true ∧ Memory.below p.txCap t.buf = true ∧ t.len ≤ p.txCap ∧
    (t.len = 0 ∨ isFrame t.frame = true) ∧
    ((t.stat = .ok ∧ t.sent = t.len) ∨ (t.stat = .transportWriteError ∧ t.sent < t.len) ∨
      (t.stat = .txTooLong ∧ t.len = 0 ∧ t.sent = 0))

end Sys2Proof.Machine

namespace Sys2Proof

/-- The bounds of R36 on the content of a variant. -/
def DpVal.fits : DpVal → Bool
  | .raw b => decide (b.length ≤ 64)
  | .bool _ => true
  | .value _ => true
  | .str s => decide (s.length ≤ 63) && decide ((0 : Byte) ∉ s)
  | .enum _ => true
  | .bitmap b => decide (b.length ≤ 64)

/-- R39: for RAW and BITMAP `DP.len = |b|`. -/
def DpVal.hasLen (len : Half) : DpVal → Bool
  | .raw b => decide (b.length = len.toNat)
  | .bool _ => true
  | .value _ => true
  | .str _ => true
  | .enum _ => true
  | .bitmap b => decide (b.length = len.toNat)

/-- R39, after a setter: a bitmap of at most 4 bytes. -/
def DpVal.setterBitmap : DpVal → Bool
  | .raw _ => true
  | .bool _ => true
  | .value _ => true
  | .str _ => true
  | .enum _ => true
  | .bitmap b => decide (b.length ≤ 4)

end Sys2Proof

namespace Sys2Proof.Machine
open Sys2Proof

/-- R39 for a DP register that holds a data point. -/
abbrev DpUnit.consistent (d : DpUnit) : Prop :=
  d.val.type = d.type ∧ d.val.fits = true ∧ d.val.hasLen d.len = true ∧ d.len.toNat ≤ 64

/-- R39 "after a setter": `DP.len` is the length the encoder emits, and a bitmap has at most 4 bytes. -/
abbrev DpUnit.setterForm (d : DpUnit) : Prop :=
  d.valid = true ∧ d.consistent ∧ d.len = encLen d.len d.val ∧ d.val.setterBitmap = true

/-- R34 to R39. -/
abbrev DpUnit.ok (d : DpUnit) : Prop :=
  d.val.fits = true ∧ d.stat ∈ [Status.ok, .malformedDP, .dpInvalid] ∧ (d.valid = true → d.consistent)

/-- R26: the payload has exactly `len` bytes, and the frame fitted the receive buffer. -/
abbrev FrameEvent.ok (p : Params) (e : FrameEvent) : Prop := e.payload.length = e.len.toNat ∧ frameLen e.len ≤ p.rxCap

/-- The invariant of the machine. -/
abbrev State.Inv (s : State) : Prop :=
  Params.ok s.params ∧ RxUnit.ok s.params s.rx ∧ TxUnit.ok s.params s.tx ∧ DpUnit.ok s.dp ∧
    ∀ e ∈ s.env.events, FrameEvent.ok s.params e

/-! ### What can be observed -/

/-- Two states that differ only in what no operation and no requester can see: buffer bytes at or above the counts, the
fields of a DP register that holds nothing, and how often a free value was drawn (R22, R28, R37). -/
structure SameVisible (s t : State) : Prop where
  params : s.params = t.params
  env : s.env = t.env
  rxcnt : s.rx.cnt = t.rx.cnt
  rxstat : s.rx.stat = t.rx.stat
  rxheld : s.rx.held = t.rx.held
  readBack : s.readBack = t.readBack

/-! ### Units -/

/-- The units of 00_scope.md R2, and the block as a whole for `RESET` (30_encoding.md R80). -/
inductive UnitName where
  | block
  | rx
  | tx
  | dp
  deriving DecidableEq, Repr

/-- The unit of R80; a wire pattern belongs to the unit that recognises it (R85). -/
def unitOf : Instr → UnitName
  | .reset => .block
  | .rxReset => .rx
  | .rxPush _ => .rx
  | .rxScan => .rx
  | .rxPass => .rx
  | .txFrame _ _ _ => .tx
  | .dpSetRaw _ _ => .dp
  | .dpSetBool _ _ => .dp
  | .dpSetValue _ _ => .dp
  | .dpSetString _ _ => .dp
  | .dpSetEnum _ _ => .dp
  | .dpSetBitmap _ _ => .dp
  | .dpEnc => .dp
  | .dpDec _ => .dp
  | .wireFrame _ _ _ => .rx
  | .wireDpRaw _ _ _ => .dp
  | .wireDpBool _ _ _ => .dp
  | .wireDpValue _ _ _ => .dp
  | .wireDpString _ _ _ => .dp
  | .wireDpEnum _ _ _ => .dp
  | .wireDpBitmap _ _ _ => .dp

end Sys2Proof.Machine
end

