-- ==== Sys2Proof/Certificates/Slice0/Obligations.lean ====
section
/-! DEFINITION. The statements for the provers. Each docstring names the rule of spec/ it formalises; where a clause rests on
a choice of the model, it names the log entry. Frames are equations between states: `t = { s with ... }` says that every
field not written there is unchanged. `Memory.wf` is the canonical form of a buffer; every operation keeps it
(`StepKeepsInvariant`). -/
open Sys2Proof Sys2Proof.Machine

/-! ### Encoding and the step -/

/-- Every instruction is read back from its own bytes, whatever follows a request or a frame header; a record is all of
its operand (R70, R76, R77, R80, R81; the operand layout is log entry 2). -/
def Obligations.DecodeEncodeRoundTrip : Prop :=
  ∀ (i : Instr) (rest : List Byte),
    (i.format ≠ .dpRecord → decodeAs i.format (encode i ++ rest) = .ok (i, rest)) ∧
    (i.format = .dpRecord → decodeAs i.format (encode i) = .ok (i, []))

/-- Words with the codes of R80, the frame header of R70 and the record header of R76 decode to what they stand for. The
operand bytes of the requests (the length byte before a string, the i32 most significant byte first) are the model's
layout, log entry 2 (DESIGN CHOICE): R81 gives the operands and not their bits. -/
def Obligations.SpecWordsDecode : Prop :=
  decodeRequest [0x00] = .ok (.reset, []) ∧
  decodeRequest [0x11, 0x55, 0x12] = .ok (.rxPush 0x55, [0x12]) ∧
  decodeRequest [0x20, 0x00, 0x01, 0x01, 0x05] = .ok (.txFrame 0x00 0x01 [0x05], []) ∧
  decodeRequest [0x32, 0x02, 0xFF, 0xFF, 0xFF, 0xFE] = .ok (.dpSetValue 0x02 (-2), []) ∧
  decodeRequest [0x39, 0x04, 0x01, 0x01, 0x00, 0x00] = .ok (.dpDec [0x01, 0x01, 0x00, 0x00], []) ∧
  decodeFrame [0x55, 0xAA, 0x03, 0x07, 0x01, 0x05, 0x01] = .ok (.wireFrame 0x03 0x07 0x0105, [0x01]) ∧
  decodeRecord [0x03, 0x03, 0x00, 0x01, 0x61] = .ok (.wireDpString 0x03 1 [0x61], []) ∧
  decodeRecord [0x01, 0x06, 0x00, 0x01, 0x00] = .error (.reservedType 6)

/-- R82: a code that is none of the fourteen is refused, and a refusal leaves no state. -/
def Obligations.ReservedOperationIsRefused : Prop :=
  ∀ (s : State) (op : Byte) (bs : List Byte), s.env.port = op :: bs →
    op ∉ ([0x00, 0x10, 0x11, 0x12, 0x13, 0x20, 0x30, 0x31, 0x32, 0x33, 0x34, 0x35, 0x38, 0x39] : List Byte) →
    step s = .refused (.reservedOp op)

/-- A step runs the instruction the bytes at the request port decode to, on the state with those bytes taken (R58; the
port is log entry 10). -/
def Obligations.StepRunsTheRequest : Prop :=
  ∀ (s : State) (i : Instr) (rest : List Byte), decodeRequest s.env.port = .ok (i, rest) →
    step s = exec i { s with env := { s.env with port := rest } }

/-- A step whose request meets a wire pattern in the bytes it reads runs that pattern (R85; log entry 3). -/
def Obligations.StepRunsTheWirePattern : Prop :=
  (∀ (s : State) (rest : List Byte) (ver cmd : Byte) (len : Half),
    decodeRequest s.env.port = .ok (.rxScan, rest) → 6 ≤ s.rx.cnt →
    Memory.readRange s.rx.buf 0 6 = [0x55, 0xAA, ver, cmd, hi8 len, lo8 len] →
    step s = exec (.wireFrame ver cmd len) { s with env := { s.env with port := rest } }) ∧
  (∀ (s : State) (rest bs : List Byte) (i : Instr),
    decodeRequest s.env.port = .ok (.dpDec bs, rest) → decodeRecord bs = .ok (i, []) →
    step s = exec i { s with env := { s.env with port := rest } })

/-- R21: the block does nothing between requests (an idle step is the model's form of it, log entry 9). -/
def Obligations.IdleStepHoldsTheState : Prop :=
  ∀ s : State, s.env.port = [] → step s = .next s

/-! ### Whole machine -/

/-- The values R44 gives for the state after reset. -/
def Obligations.ResetValues : Prop :=
  State.reset.rx.cnt = 0 ∧ State.reset.rx.stat = .ok ∧
  State.reset.tx.len = 0 ∧ State.reset.tx.sent = 0 ∧ State.reset.tx.stat = .ok ∧
  State.reset.dp.valid = false ∧ State.reset.dp.stat = .ok ∧ State.reset.env.events = []

/-- `State.reset` meets the invariant (its parameters and DP fields are the model's start values, log entries 1 and 6). -/
def Obligations.ResetMeetsInvariant : Prop := State.reset.Inv

/-- Every step keeps the invariant: the parameters legal (R5), the counts within the capacities, the buffers canonical and
written only inside them, `TXBUF[0..TXLEN-1]` a frame, the content of `DP.val` within the sizes of R36, the DP register
consistent while `DP_VALID = 1`, every event as long as it says (R23, R24, R26, R28 to R31, R34, R36, R38, R39, R62). Two
clauses are the model's: the canonical form is the shape of its buffers (log entry 4, DESIGN CHOICE), and the sizes of R36
hold with `DP_VALID = 0` too, where R37 lets the fields be anything (log entry 17, DEDUCED). -/
def Obligations.StepKeepsInvariant : Prop :=
  ∀ s t : State, s.Inv → step s = .next t → t.Inv

/-- Every instruction completes in every state, and none changes a parameter (R41, R210, R247). -/
def Obligations.EveryOperationCompletes : Prop :=
  ∀ (i : Instr) (s : State), ∃ t, exec i s = .next t ∧ t.params = s.params

/-- No operation of one unit writes the state of another, nor another's side of the environment (R2, R20, R53). -/
def Obligations.UnitsWriteOnlyTheirOwnState : Prop :=
  ∀ (i : Instr) (s t : State), exec i s = .next t →
    (unitOf i = .rx → t.tx = s.tx ∧ t.dp = s.dp ∧ t.env.txAns = s.env.txAns ∧ t.env.txlog = s.env.txlog) ∧
    (unitOf i = .tx → t.rx = s.rx ∧ t.dp = s.dp ∧ t.env.rxIn = s.env.rxIn ∧ t.env.events = s.env.events) ∧
    (unitOf i = .dp → t.rx = s.rx ∧ t.tx = s.tx ∧
      t.env = { s.env with responses := t.env.responses })

/-- No operation of one unit reads the state of another: what it does to its own unit and to the environment is the same
in two states that agree there (R2, R20). -/
def Obligations.UnitsReadOnlyTheirOwnState : Prop :=
  ∀ (i : Instr) (s s' t t' : State), s.params = s'.params → s.env = s'.env → s.draws = s'.draws →
    exec i s = .next t → exec i s' = .next t' →
    (unitOf i = .rx → s.rx = s'.rx → t.rx = t'.rx ∧ t.env = t'.env) ∧
    (unitOf i = .tx → s.tx = s'.tx → t.tx = t'.tx ∧ t.env = t'.env) ∧
    (unitOf i = .dp → s.dp = s'.dp → t.dp = t'.dp ∧ t.env = t'.env)

/-- Buffer bytes at or above the counts, and the fields of a DP register that holds nothing, are never observable: two
states that differ only there, or in the counter of free values, step to two states that differ only there (R22, R28, R37).
What stands in those places in the model is its own (log entries 4, 5 and 6), and by this statement it does not matter. -/
def Obligations.UnspecifiedStateIsUnobservable : Prop :=
  ∀ s s' t : State, s.Inv → s'.Inv → SameVisible s s' → step s = .next t →
    ∃ t', step s' = .next t' ∧ SameVisible t t'

/-- Bytes on the wire cannot be recalled, events are not erased, and a read byte is gone from the transport (R42, R53,
R56, R57, R230; the responses and the port are the model's, log entries 8 and 10). -/
def Obligations.RecordsOnlyGrow : Prop :=
  ∀ (i : Instr) (s t : State), exec i s = .next t →
    s.env.events <+: t.env.events ∧ s.env.txlog <+: t.env.txlog ∧ s.env.responses <+: t.env.responses ∧
    t.env.rxIn <:+ s.env.rxIn ∧ t.env.txAns <:+ s.env.txAns ∧ t.env.port = s.env.port

/-- The unit's status register takes the code the operation returns (R24, R31, R38, R200; the list of responses is the
model's, log entry 8). -/
def Obligations.StatusRegisterHoldsTheReturnedStatus : Prop :=
  ∀ (i : Instr) (s t : State) (r : Response), exec i s = .next t → t.env.responses = s.env.responses ++ [r] →
    (unitOf i = .rx → t.rx.stat = r.returned) ∧
    (unitOf i = .tx → t.tx.stat = r.returned) ∧
    (unitOf i = .dp → t.dp.stat = r.returned)

/-! ### RESET -/

/-- R230: the counts, the statuses and `DP_VALID`; the environment's record and the parameters are not touched (R231). That
both buffers keep their bytes is the model's reading, log entry 21 (DEDUCED): R230 says they are not cleared, R44 that they
are unspecified. Of the DP fields nothing is said. -/
def Obligations.ResetClearsEveryUnit : Prop :=
  ∀ s : State, ∃ t, exec .reset s = .next t ∧
    t.rx = { s.rx with cnt := 0, stat := .ok } ∧
    t.tx = { s.tx with len := 0, sent := 0, stat := .ok } ∧
    t.dp.valid = false ∧ t.dp.stat = .ok ∧ t.env = s.env ∧ t.params = s.params

/-- R233, for the operations whose result it names: right after a reset `RX.SCAN` waits for a header, a pass on an idle
transport (an empty list of answers, R55; log entry 7) returns `OK` and changes nothing else, and there is nothing to
encode. -/
def Obligations.AfterResetNothingIsHeld : Prop :=
  ∀ s t : State, exec .reset s = .next t →
    exec .rxScan t = .next { t with env := { t.env with responses := t.env.responses ++ [.scan .waitHdr .ok] } } ∧
    (t.env.rxIn = [] →
      exec .rxPass t = .next { t with env := { t.env with responses := t.env.responses ++ [.status .ok] } }) ∧
    exec .dpEnc t = .next { t with
      dp := { t.dp with stat := .dpInvalid }
      env := { t.env with responses := t.env.responses ++ [.status .dpInvalid] } }

/-! ### RX unit -/

/-- R100, with its frame: bytes waiting in the transport, `RXBUF` and the other units are not touched. -/
def Obligations.RxResetEmptiesTheBuffer : Prop :=
  ∀ s : State, exec .rxReset s = .next { s with
    rx := { s.rx with cnt := 0, stat := .ok }
    env := { s.env with responses := s.env.responses ++ [.status .ok] } }

/-- R101: a full buffer is emptied and the byte discarded; otherwise the byte is stored behind the held ones. -/
def Obligations.RxPushAppendsOrOverflows : Prop :=
  ∀ (s : State) (b : Byte), Memory.wf s.rx.buf = true →
    (s.rx.cnt = s.params.rxCap →
      exec (.rxPush b) s = .next { s with
        rx := { s.rx with cnt := 0, stat := .malformedFrame }
        env := { s.env with responses := s.env.responses ++ [.status .malformedFrame] } }) ∧
    (s.rx.cnt < s.params.rxCap →
      ∃ t, exec (.rxPush b) s = .next t ∧
        t = { s with rx := t.rx, env := { s.env with responses := s.env.responses ++ [.status .ok] } } ∧
        t.rx.cnt = s.rx.cnt + 1 ∧ t.rx.stat = .ok ∧ Memory.read t.rx.buf s.rx.cnt = b ∧
        ∀ a, a ≠ s.rx.cnt → Memory.read t.rx.buf a = Memory.read s.rx.buf a)

/-- R63: compaction by `k`, and no other byte changes. -/
def Obligations.DropFrontMovesTheRestDown : Prop :=
  ∀ (r : RxUnit) (k : Nat), Memory.wf r.buf = true → k ≤ r.cnt →
    (r.dropFront k).cnt = r.cnt - k ∧
    (∀ i, i < r.cnt - k → Memory.read (r.dropFront k).buf i = Memory.read r.buf (i + k)) ∧
    (∀ i, r.cnt - k ≤ i → Memory.read (r.dropFront k).buf i = Memory.read r.buf i) ∧
    (r.dropFront k).stat = r.stat

/-- R102, R103: `WAIT_HDR` with fewer than six bytes; `WAIT_BODY` with a synchronised header and fewer than `7 + L`.
Neither changes a held byte. -/
def Obligations.RxScanWaitsForMoreBytes : Prop :=
  ∀ s : State,
    (s.rx.cnt < 6 →
      exec .rxScan s = .next { s with
        rx := { s.rx with stat := .ok }
        env := { s.env with responses := s.env.responses ++ [.scan .waitHdr .ok] } }) ∧
    (∀ len : Half, 6 ≤ s.rx.cnt → Memory.read s.rx.buf 0 = 0x55 → Memory.read s.rx.buf 1 = 0xAA →
      len = be16 (Memory.read s.rx.buf 4) (Memory.read s.rx.buf 5) →
      7 + len.toNat ≤ s.params.rxCap → s.rx.cnt < 7 + len.toNat →
      exec .rxScan s = .next { s with
        rx := { s.rx with stat := .ok }
        env := { s.env with responses := s.env.responses ++ [.scan .waitBody .ok] } })

/-- R102, R103: an unsynchronised buffer of six bytes or more loses its oldest byte and reports nothing. -/
def Obligations.RxScanDropsOneByteOutOfSync : Prop :=
  ∀ s : State, Memory.wf s.rx.buf = true → 6 ≤ s.rx.cnt →
    (Memory.read s.rx.buf 0 ≠ 0x55 ∨ Memory.read s.rx.buf 1 ≠ 0xAA) →
    ∃ t, exec .rxScan s = .next t ∧
      t = { s with rx := t.rx, env := { s.env with responses := s.env.responses ++ [.scan .drop .ok] } } ∧
      t.rx.cnt = s.rx.cnt - 1 ∧ t.rx.stat = .ok ∧
      (∀ i, i < s.rx.cnt - 1 → Memory.read t.rx.buf i = Memory.read s.rx.buf (i + 1)) ∧
      ∀ i, s.rx.cnt - 1 ≤ i → Memory.read t.rx.buf i = Memory.read s.rx.buf i

/-- R102, R103: a candidate that cannot fit empties the buffer, before it is complete and whatever its checksum. -/
def Obligations.RxScanRejectsAFrameThatCannotFit : Prop :=
  ∀ (s : State) (len : Half), 6 ≤ s.rx.cnt → Memory.read s.rx.buf 0 = 0x55 → Memory.read s.rx.buf 1 = 0xAA →
    len = be16 (Memory.read s.rx.buf 4) (Memory.read s.rx.buf 5) → s.params.rxCap < 7 + len.toNat →
    exec .rxScan s = .next { s with
      rx := { s.rx with cnt := 0, stat := .malformedFrame }
      env := { s.env with responses := s.env.responses ++ [.scan .tooLong .malformedFrame] } }

/-- R102 to R104: on a checksum mismatch nothing is dispatched; `HOLD` leaves the buffer, `DROP1` removes its oldest
byte. -/
def Obligations.RxScanReportsAChecksumMismatch : Prop :=
  ∀ (s : State) (len : Half), Memory.wf s.rx.buf = true →
    Memory.read s.rx.buf 0 = 0x55 → Memory.read s.rx.buf 1 = 0xAA →
    len = be16 (Memory.read s.rx.buf 4) (Memory.read s.rx.buf 5) →
    7 + len.toNat ≤ s.params.rxCap → 7 + len.toNat ≤ s.rx.cnt →
    ((Memory.readRange s.rx.buf 0 (6 + len.toNat)).map BitVec.toNat).sum % 256
      ≠ (Memory.read s.rx.buf (6 + len.toNat)).toNat →
    ∃ t, exec .rxScan s = .next t ∧
      t = { s with rx := t.rx
                   env := { s.env with responses := s.env.responses ++ [.scan .badSum .checksumError] } } ∧
      (s.params.csumPolicy = .hold → t.rx = { s.rx with stat := .checksumError }) ∧
      (s.params.csumPolicy = .drop1 →
        t.rx.cnt = s.rx.cnt - 1 ∧ t.rx.stat = .checksumError ∧
        (∀ i, i < s.rx.cnt - 1 → Memory.read t.rx.buf i = Memory.read s.rx.buf (i + 1)) ∧
        ∀ i, s.rx.cnt - 1 ≤ i → Memory.read t.rx.buf i = Memory.read s.rx.buf i)

/-- R102, R103, R109: a complete candidate whose checksum holds is dispatched with its fields, exactly its `7 + L` bytes
are removed, and the byte behind it comes to index 0. `WIRE.FRAME` is that candidate (R85). -/
def Obligations.RxScanDispatchesAValidFrame : Prop :=
  ∀ (s : State) (len : Half), Memory.wf s.rx.buf = true →
    Memory.read s.rx.buf 0 = 0x55 → Memory.read s.rx.buf 1 = 0xAA →
    len = be16 (Memory.read s.rx.buf 4) (Memory.read s.rx.buf 5) →
    7 + len.toNat ≤ s.params.rxCap → 7 + len.toNat ≤ s.rx.cnt →
    ((Memory.readRange s.rx.buf 0 (6 + len.toNat)).map BitVec.toNat).sum % 256
      = (Memory.read s.rx.buf (6 + len.toNat)).toNat →
    ∃ t, exec .rxScan s = .next t ∧
      exec (.wireFrame (Memory.read s.rx.buf 2) (Memory.read s.rx.buf 3) len) s = .next t ∧
      t = { s with rx := t.rx
                   env := { s.env with
                     events := s.env.events ++
                       [{ ver := Memory.read s.rx.buf 2, cmd := Memory.read s.rx.buf 3, len := len
                          payload := Memory.readRange s.rx.buf 6 len.toNat }]
                     responses := s.env.responses ++ [.scan .dispatch .ok] } } ∧
      t.rx.cnt = s.rx.cnt - (7 + len.toNat) ∧ t.rx.stat = .ok ∧
      (∀ i, i < s.rx.cnt - (7 + len.toNat) →
        Memory.read t.rx.buf i = Memory.read s.rx.buf (i + (7 + len.toNat))) ∧
      ∀ i, s.rx.cnt - (7 + len.toNat) ≤ i → Memory.read t.rx.buf i = Memory.read s.rx.buf i

/-- `WIRE.FRAME` at the front of `RXBUF` is the scan that meets it (R85, R102), with every outcome that scan has; a header
that does not lead the buffer does nothing (the model's choice, log entry 3). -/
def Obligations.WireFrameIsTheScanOfItsCandidate : Prop :=
  ∀ (s : State) (ver cmd : Byte) (len : Half),
    (6 ≤ s.rx.cnt → Memory.readRange s.rx.buf 0 6 = [0x55, 0xAA, ver, cmd, hi8 len, lo8 len] →
      exec (.wireFrame ver cmd len) s = exec .rxScan s) ∧
    (s.rx.cnt < 6 ∨ Memory.readRange s.rx.buf 0 6 ≠ [0x55, 0xAA, ver, cmd, hi8 len, lo8 len] →
      exec (.wireFrame ver cmd len) s = .next s)

/-- R105 (a): at most `RXCNT + 1` consecutive scans reach an outcome that ends the parse loop. -/
def Obligations.RepeatedScanEnds : Prop :=
  ∀ s : State, ∃ o st, (rxDrain s).env.responses.getLast? = some (.scan o st) ∧
    (o = .waitHdr ∨ o = .waitBody ∨ o = .badSum ∨ o = .tooLong)

/-- R105 (d): a frame-out event comes only from a synchronised buffer, one at a time, its fields taken at the fixed
offsets. -/
def Obligations.NoFrameFromAnUnsyncedBuffer : Prop :=
  ∀ (s t : State) (i : Instr), (i = .rxScan ∨ ∃ ver cmd len, i = .wireFrame ver cmd len) →
    exec i s = .next t → t.env.events ≠ s.env.events →
    6 ≤ s.rx.cnt ∧ Memory.read s.rx.buf 0 = 0x55 ∧ Memory.read s.rx.buf 1 = 0xAA ∧
    t.env.events = s.env.events ++
      [{ ver := Memory.read s.rx.buf 2, cmd := Memory.read s.rx.buf 3
         len := be16 (Memory.read s.rx.buf 4) (Memory.read s.rx.buf 5)
         payload := Memory.readRange s.rx.buf 6 (be16 (Memory.read s.rx.buf 4) (Memory.read s.rx.buf 5)).toNat }]

/-- R106, clause by clause: what a pass does with each answer of `read_byte`, and then with each outcome of `RX.SCAN`. -/
def Obligations.RxPassDrainsThenParses : Prop :=
  ∀ (s : State) (rest : List ReadAnswer),
    (s.env.rxIn = .error :: rest →
      exec .rxPass s = .next { s with
        rx := { s.rx with stat := .transportReadError }
        env := { s.env with rxIn := rest, responses := s.env.responses ++ [.status .transportReadError] } }) ∧
    (∀ b, s.env.rxIn = .byte b :: rest → s.rx.cnt = s.params.rxCap →
      exec .rxPass s = .next { s with
        rx := { s.rx with cnt := 0, stat := .malformedFrame }
        env := { s.env with rxIn := rest, responses := s.env.responses ++ [.status .malformedFrame] } }) ∧
    (∀ b t, s.env.rxIn = .byte b :: rest → s.rx.cnt < s.params.rxCap → exec (.rxPush b) s = .next t →
      exec .rxPass s = exec .rxPass { s with rx := t.rx, env := { s.env with rxIn := rest } }) ∧
    (s.env.rxIn = .noData :: rest →
      ∃ t, exec .rxPass { s with env := { s.env with rxIn := [] } } = .next t ∧
        exec .rxPass s = .next { t with env := { t.env with rxIn := rest } }) ∧
    (∀ t o st, s.env.rxIn = [] → exec .rxScan s = .next t →
      t.env.responses = s.env.responses ++ [.scan o st] →
      (o = .drop ∨ o = .dispatch →
        exec .rxPass s = exec .rxPass { t with env := { t.env with responses := s.env.responses } }) ∧
      (o ≠ .drop → o ≠ .dispatch →
        exec .rxPass s = .next { t with env := { t.env with responses := s.env.responses ++ [.status st] } }))

/-- R105 (b), over phase 2 of a pass: bytes with no sync pair among them are drained down to five, with no event and no
error reported. -/
def Obligations.UnsyncedBytesDrainToFive : Prop :=
  ∀ s : State, Memory.wf s.rx.buf = true →
    (∀ k, k + 1 < s.rx.cnt → ¬ (Memory.read s.rx.buf k = 0x55 ∧ Memory.read s.rx.buf (k + 1) = 0xAA)) →
    s.env.rxIn = [] →
    ∃ t, exec .rxPass s = .next t ∧
      t = { s with rx := t.rx, env := { s.env with responses := s.env.responses ++ [.status .ok] } } ∧
      t.rx.stat = .ok ∧ t.rx.cnt = min s.rx.cnt 5 ∧
      ∀ k, k < min s.rx.cnt 5 → Memory.read t.rx.buf k = Memory.read s.rx.buf (k + (s.rx.cnt - 5))

/-- R110: junk with no sync pair that starts inside it is dropped, and the frame behind it is parsed as if the junk had
not been there. -/
def Obligations.JunkBeforeAFrameIsDropped : Prop :=
  ∀ (s : State) (junk : List Byte) (ver cmd : Byte) (p : List Byte),
    Memory.wf s.rx.buf = true → s.params.rxCap ≤ 65542 → 7 + p.length ≤ s.params.rxCap → s.env.rxIn = [] →
    s.rx.cnt = junk.length + (7 + p.length) →
    Memory.readRange s.rx.buf 0 (junk.length + (7 + p.length)) = junk ++ frameBytes ver cmd p →
    (∀ k, k < junk.length → ¬ (Memory.read s.rx.buf k = 0x55 ∧ Memory.read s.rx.buf (k + 1) = 0xAA)) →
    ∃ t, exec .rxPass s = .next t ∧
      t = { s with rx := t.rx
                   env := { s.env with
                     events := s.env.events ++
                       [{ ver := ver, cmd := cmd, len := BitVec.ofNat 16 p.length, payload := p }]
                     responses := s.env.responses ++ [.status .ok] } } ∧
      t.rx.cnt = 0 ∧ t.rx.stat = .ok

/-- A burst of frames that fits an empty buffer is received whole: one event a frame, in order, nothing left (R106,
R109). -/
def Obligations.FrameBurstIsReceivedWhole : Prop :=
  ∀ (s : State) (fs : List (Byte × Byte × List Byte)),
    Memory.wf s.rx.buf = true → s.rx.cnt = 0 → s.params.rxCap ≤ 65542 →
    ((fs.map fun f => frameBytes f.1 f.2.1 f.2.2).flatten).length ≤ s.params.rxCap →
    s.env.rxIn = ((fs.map fun f => frameBytes f.1 f.2.1 f.2.2).flatten).map ReadAnswer.byte →
    ∃ t, exec .rxPass s = .next t ∧
      t = { s with rx := t.rx
                   env := { s.env with
                     rxIn := []
                     events := s.env.events ++ fs.map fun f =>
                       { ver := f.1, cmd := f.2.1, len := BitVec.ofNat 16 f.2.2.length, payload := f.2.2 }
                     responses := s.env.responses ++ [.status .ok] } } ∧
      t.rx.cnt = 0 ∧ t.rx.stat = .ok

/-- The loop-back law, R133. -/
def Obligations.LoopBackDeliversTheFrame : Prop :=
  ∀ (s : State) (ver cmd : Byte) (p : List Byte),
    Memory.wf s.rx.buf = true → s.rx.cnt = 0 → s.params.rxCap ≤ 65542 → 7 + p.length ≤ s.params.rxCap →
    (rxDrain (rxFeed (frameBytes ver cmd p) s)).env.events =
      s.env.events ++ [{ ver := ver, cmd := cmd, len := BitVec.ofNat 16 p.length, payload := p }] ∧
    (rxDrain (rxFeed (frameBytes ver cmd p) s)).env.responses.getLast? = some (.scan .waitHdr .ok) ∧
    (rxDrain (rxFeed (frameBytes ver cmd p) s)).rx.cnt = 0 ∧
    (rxDrain (rxFeed (frameBytes ver cmd p) s)).rx.stat = .ok

/-- R108: change exactly one byte of a well-formed frame. At version, command, payload or checksum the scan reports
`BADSUM`; at a sync byte it answers `DROP` with status `OK`, so nothing is dispatched and no error is reported. The length
bytes are left out, as R108 leaves them. -/
def Obligations.SingleByteCorruptionIsDetected : Prop :=
  ∀ (s : State) (ver cmd : Byte) (p : List Byte) (k : Nat) (x : Byte),
    Memory.wf s.rx.buf = true → s.params.rxCap ≤ 65542 → 7 + p.length ≤ s.params.rxCap →
    7 + p.length ≤ s.rx.cnt →
    k < 7 + p.length → x ≠ (frameBytes ver cmd p).getD k 0 →
    Memory.readRange s.rx.buf 0 (7 + p.length) = (frameBytes ver cmd p).set k x →
    ∃ t, exec .rxScan s = .next t ∧
      (k = 2 ∨ k = 3 ∨ 6 ≤ k → t.env.events = s.env.events ∧
        t.env.responses = s.env.responses ++ [.scan .badSum .checksumError]) ∧
      (k = 0 ∨ k = 1 → t.env.events = s.env.events ∧ t.env.responses = s.env.responses ++ [.scan .drop .ok])

/-- The checksum wedge of R236: under `HOLD`, after a mismatch, a further scan and a pass with nothing to read meet it
again, with the buffer unchanged and no event. -/
def Obligations.HoldPolicyWedgesTheReceiver : Prop :=
  ∀ s t : State, s.params.csumPolicy = .hold → exec .rxScan s = .next t →
    t.env.responses = s.env.responses ++ [.scan .badSum .checksumError] →
    t.rx = { s.rx with stat := .checksumError } ∧ t.env.events = s.env.events ∧
    exec .rxScan t = .next { t with env := { t.env with
      responses := t.env.responses ++ [.scan .badSum .checksumError] } } ∧
    (t.env.rxIn = [] → exec .rxPass t = .next { t with env := { t.env with
      responses := t.env.responses ++ [.status .checksumError] } })

/-! ### TX unit -/

/-- R130, with R72 for the checksum: the fields of an assembled frame. -/
def Obligations.FrameBytesLayout : Prop :=
  ∀ (ver cmd : Byte) (p : List Byte), p.length ≤ 65535 →
    (frameBytes ver cmd p).length = 7 + p.length ∧
    (frameBytes ver cmd p).take 6 =
      [0x55, 0xAA, ver, cmd, BitVec.ofNat 8 (p.length / 256), BitVec.ofNat 8 (p.length % 256)] ∧
    ((frameBytes ver cmd p).drop 6).take p.length = p ∧
    ((frameBytes ver cmd p).getD (6 + p.length) 0).toNat =
      (((frameBytes ver cmd p).take (6 + p.length)).map BitVec.toNat).sum % 256

/-- R131 when every write is accepted: the frame in `TXBUF`, all of it on the wire, no other byte of `TXBUF` changed. Where
the list of write answers is shorter than the frame, the writes behind it are accepted (log entry 7). -/
def Obligations.TxFrameSendsTheWholeFrame : Prop :=
  ∀ (s : State) (ver cmd : Byte) (p : List Byte), Memory.wf s.tx.buf = true →
    p.length + 7 ≤ s.params.txCap → WriteAnswer.error ∉ s.env.txAns.take (7 + p.length) →
    ∃ t, exec (.txFrame ver cmd p) s = .next t ∧
      t = { s with tx := t.tx
                   env := { s.env with
                     txAns := s.env.txAns.drop (7 + p.length)
                     txlog := s.env.txlog ++ frameBytes ver cmd p
                     responses := s.env.responses ++ [.status .ok] } } ∧
      t.tx.len = 7 + p.length ∧ t.tx.sent = 7 + p.length ∧ t.tx.stat = .ok ∧
      Memory.readRange t.tx.buf 0 (7 + p.length) = frameBytes ver cmd p ∧
      ∀ a, 7 + p.length ≤ a → Memory.read t.tx.buf a = Memory.read s.tx.buf a

/-- R131, R206: a payload that does not fit is refused before anything is assembled or written. -/
def Obligations.TxFrameRefusesALongPayload : Prop :=
  ∀ (s : State) (ver cmd : Byte) (p : List Byte), s.params.txCap < p.length + 7 →
    exec (.txFrame ver cmd p) s = .next { s with
      tx := { s.tx with len := 0, sent := 0, stat := .txTooLong }
      env := { s.env with responses := s.env.responses ++ [.status .txTooLong] } }

/-- R131, R132: when the first `Error` answers the write of byte `i`, bytes `0..i-1` went out, `TXSENT = i`, and `TXBUF`
and `TXLEN` describe the whole frame. -/
def Obligations.TxFrameStopsAtAWriteError : Prop :=
  ∀ (s : State) (ver cmd : Byte) (p : List Byte) (i : Nat), Memory.wf s.tx.buf = true →
    p.length + 7 ≤ s.params.txCap → i < 7 + p.length →
    WriteAnswer.error ∉ s.env.txAns.take i → s.env.txAns[i]? = some .error →
    ∃ t, exec (.txFrame ver cmd p) s = .next t ∧
      t = { s with tx := t.tx
                   env := { s.env with
                     txAns := s.env.txAns.drop (i + 1)
                     txlog := s.env.txlog ++ (frameBytes ver cmd p).take i
                     responses := s.env.responses ++ [.status .transportWriteError] } } ∧
      t.tx.len = 7 + p.length ∧ t.tx.sent = i ∧ t.tx.stat = .transportWriteError ∧
      Memory.readRange t.tx.buf 0 (7 + p.length) = frameBytes ver cmd p ∧
      ∀ a, 7 + p.length ≤ a → Memory.read t.tx.buf a = Memory.read s.tx.buf a

/-! ### DP unit: setters -/

/-- R151: the first 64 bytes, silently. -/
def Obligations.SetRawKeepsSixtyFourBytes : Prop :=
  ∀ (s : State) (id : Byte) (b : List Byte),
    exec (.dpSetRaw id b) s = .next { s with
      dp := { id := id, type := .raw, len := BitVec.ofNat 16 (min b.length 64), val := .raw (b.take 64)
              valid := true, stat := .ok }
      env := { s.env with responses := s.env.responses ++ [.status .ok] } }

/-- R156: the first 4 bytes, silently. -/
def Obligations.SetBitmapKeepsFourBytes : Prop :=
  ∀ (s : State) (id : Byte) (b : List Byte),
    exec (.dpSetBitmap id b) s = .next { s with
      dp := { id := id, type := .bitmap, len := BitVec.ofNat 16 (min b.length 4), val := .bitmap (b.take 4)
              valid := true, stat := .ok }
      env := { s.env with responses := s.env.responses ++ [.status .ok] } }

/-- R152, R153, R155: the setters of fixed size. -/
def Obligations.FixedSizeSettersLoadTheirOperand : Prop :=
  ∀ (s : State) (id e : Byte) (t : Bool) (v : Word),
    exec (.dpSetBool id t) s = .next { s with
      dp := { id := id, type := .bool, len := 1, val := .bool t, valid := true, stat := .ok }
      env := { s.env with responses := s.env.responses ++ [.status .ok] } } ∧
    exec (.dpSetValue id v) s = .next { s with
      dp := { id := id, type := .value, len := 4, val := .value v, valid := true, stat := .ok }
      env := { s.env with responses := s.env.responses ++ [.status .ok] } } ∧
    exec (.dpSetEnum id e) s = .next { s with
      dp := { id := id, type := .enum, len := 1, val := .enum e, valid := true, stat := .ok }
      env := { s.env with responses := s.env.responses ++ [.status .ok] } }

/-- R154: the content ends at the least index `z` of a 0x00, or is the whole operand; its first 63 bytes are kept. -/
def Obligations.SetStringEndsAtNulAndAtSixtyThree : Prop :=
  ∀ (s : State) (id : Byte) (b : List Byte) (z : Nat), z ≤ b.length →
    (∀ i, i < z → b.getD i 0 ≠ 0) → (z = b.length ∨ b.getD z 0 = 0) →
    exec (.dpSetString id b) s = .next { s with
      dp := { id := id, type := .string, len := BitVec.ofNat 16 (min z 63), val := .str (b.take (min z 63))
              valid := true, stat := .ok }
      env := { s.env with responses := s.env.responses ++ [.status .ok] } }

/-- R39 "after a setter", R150: whatever the operands and the state before, a setter leaves a data point of the form the
round-trip law asks for. -/
def Obligations.SettersEstablishTheInvariant : Prop :=
  ∀ (i : Instr) (s t : State),
    (∃ id b, i = .dpSetRaw id b ∨ i = .dpSetString id b ∨ i = .dpSetBitmap id b) ∨
      (∃ id x, i = .dpSetBool id x) ∨ (∃ id v, i = .dpSetValue id v) ∨ (∃ id e, i = .dpSetEnum id e) →
    exec i s = .next t → t.dp.setterForm ∧ t.dp.stat = .ok

/-! ### DP unit: codec -/

/-- R170, R171: the record of the data point held, per type; the register is not changed. -/
def Obligations.EncodeReturnsTheRecord : Prop :=
  ∀ s : State, s.dp.valid = true → s.dp.consistent →
    ∃ e, exec .dpEnc s = .next { s with
        dp := { s.dp with stat := .ok }
        env := { s.env with responses := s.env.responses ++ [.encoded e] } } ∧
      (∀ b, s.dp.val = .raw b → e = [s.dp.id, 0, hi8 s.dp.len, lo8 s.dp.len] ++ b) ∧
      (∀ t, s.dp.val = .bool t → e = [s.dp.id, 1, 0, 1, if t then 1 else 0]) ∧
      (∀ v, s.dp.val = .value v → e = [s.dp.id, 2, 0, 4, BitVec.ofNat 8 (v.toNat / 16777216),
        BitVec.ofNat 8 (v.toNat / 65536), BitVec.ofNat 8 (v.toNat / 256), BitVec.ofNat 8 v.toNat]) ∧
      (∀ b, s.dp.val = .str b → e = [s.dp.id, 3, 0, BitVec.ofNat 8 b.length] ++ b) ∧
      (∀ x, s.dp.val = .enum x → e = [s.dp.id, 4, 0, 1, x]) ∧
      (∀ b, s.dp.val = .bitmap b → e = [s.dp.id, 5, hi8 s.dp.len, lo8 s.dp.len] ++ b)

/-- R171, R207: with no data point there is nothing to encode, and nothing changes but `DPSTAT`. -/
def Obligations.EncodeWithoutADataPointFails : Prop :=
  ∀ s : State, s.dp.valid = false →
    exec .dpEnc s = .next { s with
      dp := { s.dp with stat := .dpInvalid }
      env := { s.env with responses := s.env.responses ++ [.status .dpInvalid] } }

/-- R173, R205: the four causes of `MalformedDP`. The DP fields become unspecified (free values, log entry 5), so nothing is
said of them or of the counter of free values. -/
def Obligations.DecodeRejectsMalformedRecords : Prop :=
  ∀ (s : State) (b : List Byte),
    (b.length < 4 ∨ 64 < (be16 (b.getD 2 0) (b.getD 3 0)).toNat ∨
      b.length < 4 + (be16 (b.getD 2 0) (b.getD 3 0)).toNat ∨ 5 < (b.getD 1 0).toNat) →
    ∃ t, exec (.dpDec b) s = .next t ∧ t.dp.valid = false ∧ t.dp.stat = .malformedDP ∧
      t = { s with dp := t.dp, draws := t.draws
                   env := { s.env with responses := s.env.responses ++ [.status .malformedDP] } }

/-- R173 to R176: a complete record of a legal type is decoded; the payload `p` is what the declared length takes of the
bytes behind the header, and bytes it lacks read as 0x00 (the spec's decision D17; log entry 13). -/
def Obligations.DecodeLoadsEveryType : Prop :=
  ∀ (s : State) (id : Byte) (len : Half) (rest p : List Byte) (ty : DpType) (val : DpVal),
    len.toNat ≤ 64 → len.toNat ≤ rest.length → p = rest.take len.toNat →
    ((ty = .raw ∧ val = .raw p) ∨ (ty = .bool ∧ val = .bool (p.getD 0 0 != 0)) ∨
      (ty = .value ∧ val = .value (s32 (p.getD 0 0) (p.getD 1 0) (p.getD 2 0) (p.getD 3 0))) ∨
      (ty = .string ∧ val = .str ((p.take 63).takeWhile fun c => c != 0)) ∨
      (ty = .enum ∧ val = .enum (p.getD 0 0)) ∨ (ty = .bitmap ∧ val = .bitmap p)) →
    exec (.dpDec ([id, ty.code, hi8 len, lo8 len] ++ rest)) s = .next { s with
      dp := { id := id, type := ty, len := len, val := val, valid := true, stat := .ok }
      env := { s.env with responses := s.env.responses ++ [.decoded (4 + len.toNat)] } }

/-- R78 with R173 to R176 for the six record patterns of R85. -/
def Obligations.WireRecordsLoadTheDataPoint : Prop :=
  ∀ (s : State) (id : Byte) (len : Half) (rest p : List Byte),
    len.toNat ≤ 64 → len.toNat ≤ rest.length → p = rest.take len.toNat →
    (∀ (i : Instr) (ty : DpType) (val : DpVal),
      ((i = .wireDpRaw id len rest ∧ ty = .raw ∧ val = .raw p) ∨
       (i = .wireDpBool id len rest ∧ ty = .bool ∧ val = .bool (p.getD 0 0 != 0)) ∨
       (i = .wireDpValue id len rest ∧ ty = .value ∧
         val = .value (s32 (p.getD 0 0) (p.getD 1 0) (p.getD 2 0) (p.getD 3 0))) ∨
       (i = .wireDpString id len rest ∧ ty = .string ∧ val = .str ((p.take 63).takeWhile fun c => c != 0)) ∨
       (i = .wireDpEnum id len rest ∧ ty = .enum ∧ val = .enum (p.getD 0 0)) ∨
       (i = .wireDpBitmap id len rest ∧ ty = .bitmap ∧ val = .bitmap p)) →
      exec i s = .next { s with
        dp := { id := id, type := ty, len := len, val := val, valid := true, stat := .ok }
        env := { s.env with responses := s.env.responses ++ [.decoded (4 + len.toNat)] } })

/-- A record pattern is `DP.DEC` of its bytes, in every form of it, the malformed ones too (R79, R85, R173). -/
def Obligations.WireRecordsAreDecodedRecords : Prop :=
  ∀ (i : Instr) (s : State), i.format = .dpRecord → exec i s = exec (.dpDec (encode i)) s

/-- R179, R79: bytes behind the first record change nothing of what `DP.DEC` does with it, so a requester can walk a
payload by the consumed count. -/
def Obligations.DecodeIgnoresTrailingBytes : Prop :=
  ∀ (s : State) (id : Byte) (ty : DpType) (len : Half) (p more : List Byte), p.length = len.toNat →
    exec (.dpDec ([id, ty.code, hi8 len, lo8 len] ++ p ++ more)) s =
      exec (.dpDec ([id, ty.code, hi8 len, lo8 len] ++ p)) s

/-- R177: decode after encode, for a data point as a setter stores it. The decode may run on any state `w`, whatever its DP
register holds, so it is the record alone that carries the data point. -/
def Obligations.DecodeAfterEncodeRestoresTheDataPoint : Prop :=
  ∀ s : State, s.dp.setterForm →
    ∃ e t, exec .dpEnc s = .next t ∧ t.env.responses = s.env.responses ++ [.encoded e] ∧
      ∀ w : State, ∃ u, exec (.dpDec e) w = .next u ∧ u.dp = { s.dp with stat := .ok } ∧
        u.env.responses = w.env.responses ++ [.decoded e.length]

/-- R178: encode after decode returns the record itself for RAW and BITMAP, and for the other types when the record was
canonical. -/
def Obligations.EncodeAfterDecodeOfCanonicalRecords : Prop :=
  ∀ (s t : State) (id : Byte) (ty : DpType) (len : Half) (p more : List Byte),
    p.length = len.toNat → len.toNat ≤ 64 →
    (ty = .raw ∨ ty = .bitmap ∨ (ty = .bool ∧ (p = [0] ∨ p = [1])) ∨ (ty = .value ∧ len.toNat = 4) ∨
      (ty = .enum ∧ len.toNat = 1) ∨ (ty = .string ∧ len.toNat ≤ 63 ∧ (0 : Byte) ∉ p)) →
    exec (.dpDec ([id, ty.code, hi8 len, lo8 len] ++ p ++ more)) s = .next t →
    exec .dpEnc t = .next { t with
      env := { t.env with
        responses := t.env.responses ++ [.encoded ([id, ty.code, hi8 len, lo8 len] ++ p)] } }

/-! ### The units together -/

/-- `TX.DP` (R84): the record of the data point, framed and sent; without a data point nothing is sent. -/
def Obligations.TxDpSendsTheRecord : Prop :=
  ∀ (s : State) (ver cmd : Byte),
    (s.dp.valid = false → txDp ver cmd s = { s with
      dp := { s.dp with stat := .dpInvalid }
      env := { s.env with responses := s.env.responses ++ [.status .dpInvalid] } }) ∧
    (∀ (e : List Byte) (t : State), exec .dpEnc s = .next t →
      t.env.responses = s.env.responses ++ [.encoded e] → exec (.txFrame ver cmd e) t = .next (txDp ver cmd s))

/-- The whole path of program P1, for every setter and every data point (R84, R133, R150, R177). A setter runs; `TX.DP`
sends what it stored over a link that accepts every byte; the DP register is then overwritten with any contents `d`
(step 5 of P1); an empty receiver reads the bytes sent in one pass, and `DP.DEC` of the event's payload gives back the
data point the setter stored. -/
def Obligations.DataPointSurvivesTheLink : Prop :=
  ∀ (i : Instr) (s a : State) (d : DpUnit) (ver cmd : Byte),
    (∃ id b, i = .dpSetRaw id b ∨ i = .dpSetString id b ∨ i = .dpSetBitmap id b) ∨
      (∃ id x, i = .dpSetBool id x) ∨ (∃ id v, i = .dpSetValue id v) ∨ (∃ id e, i = .dpSetEnum id e) →
    exec i s = .next a →
    Memory.wf s.rx.buf = true → s.rx.cnt = 0 → s.params.rxCap ≤ 65542 →
    75 ≤ s.params.rxCap → 75 ≤ s.params.txCap → WriteAnswer.error ∉ s.env.txAns →
    ∃ (e : FrameEvent) (u v : State),
      exec .rxPass (wire (((txDp ver cmd a).env.txlog.drop s.env.txlog.length).map .byte)
        { txDp ver cmd a with dp := d }) = .next u ∧
      u.env.events = s.env.events ++ [e] ∧ e.ver = ver ∧ e.cmd = cmd ∧ u.rx.cnt = 0 ∧ u.rx.stat = .ok ∧ u.dp = d ∧
      exec (.dpDec e.payload) u = .next v ∧ v.dp = a.dp ∧
      v.env.responses = u.env.responses ++ [.decoded e.payload.length]
end

