-- ==== Sys2Proof/Laws/Bytes.lean ====
section
/-! SUPPORT. Laws of the byte-order helpers and of the checksum (00_scope.md R8). -/
namespace Sys2Proof

theorem be16_toNat (h l : Byte) : (be16 h l).toNat = 256 * h.toNat + l.toNat := by
  have := h.isLt; have := l.isLt
  simp [be16, BitVec.toNat_ofNat]; omega

theorem hi8_toNat (v : Half) : (hi8 v).toNat = v.toNat / 256 := by
  have := v.isLt
  simp [hi8, BitVec.extractLsb'_toNat, Nat.shiftRight_eq_div_pow]; omega

theorem lo8_toNat (v : Half) : (lo8 v).toNat = v.toNat % 256 := by
  simp [lo8, BitVec.extractLsb'_toNat]

@[simp] theorem be16_hi8_lo8 (v : Half) : be16 (hi8 v) (lo8 v) = v := by
  apply BitVec.eq_of_toNat_eq
  rw [be16_toNat, hi8_toNat, lo8_toNat]; omega

@[simp] theorem hi8_be16 (h l : Byte) : hi8 (be16 h l) = h := by
  apply BitVec.eq_of_toNat_eq
  have := h.isLt; have := l.isLt
  rw [hi8_toNat, be16_toNat]; omega

@[simp] theorem lo8_be16 (h l : Byte) : lo8 (be16 h l) = l := by
  apply BitVec.eq_of_toNat_eq
  have := h.isLt; have := l.isLt
  rw [lo8_toNat, be16_toNat]; omega

theorem s32_toNat (b0 b1 b2 b3 : Byte) :
    (s32 b0 b1 b2 b3).toNat = 16777216 * b0.toNat + 65536 * b1.toNat + 256 * b2.toNat + b3.toNat := by
  have := b0.isLt; have := b1.isLt; have := b2.isLt; have := b3.isLt
  simp [s32, BitVec.toNat_ofNat]; omega

/-- `s32(be32(v)) = v` (43_dp_codec.md R177). -/
@[simp] theorem s32_be32 (v : Word) :
    s32 (v.extractLsb' 24 8) (v.extractLsb' 16 8) (v.extractLsb' 8 8) (v.extractLsb' 0 8) = v := by
  apply BitVec.eq_of_toNat_eq
  have := v.isLt
  rw [s32_toNat]
  simp [BitVec.extractLsb'_toNat, Nat.shiftRight_eq_div_pow]; omega

@[simp] theorem be32_length (v : Word) : (be32 v).length = 4 := rfl

@[simp] theorem frameHeader_length (ver cmd : Byte) (len : Half) : (frameHeader ver cmd len).length = 6 := rfl

@[simp] theorem recordBytes_length (id : Byte) (ty : DpType) (len : Half) (rest : List Byte) :
    (recordBytes id ty len rest).length = 4 + rest.length := by
  simp [recordBytes]; omega

@[simp] theorem decodeBit_encodeBit (t : Bool) : decodeBit (encodeBit t) = t := by cases t <;> rfl

namespace Machine

@[simp] theorem sum8_nil : sum8 [] = 0 := rfl
@[simp] theorem sum8_cons (b : Byte) (bs : List Byte) : sum8 (b :: bs) = b + sum8 bs := rfl

theorem sum8_append (a b : List Byte) : sum8 (a ++ b) = sum8 a + sum8 b := by
  induction a with
  | nil => simp
  | cons x a ih => simp [ih, BitVec.add_assoc]

/-- Changing one byte changes the sum by exactly the difference (R108). -/
theorem sum8_set (a : List Byte) (k : Nat) (x : Byte) (h : k < a.length) :
    sum8 (a.set k x) = sum8 a - a[k] + x := by
  induction a generalizing k with
  | nil => simp at h
  | cons y a ih =>
    cases k with
    | zero => simp [BitVec.add_comm]
    | succ k =>
      have hk : k < a.length := by simpa using h
      simp only [List.set_cons_succ, sum8_cons, List.getElem_cons_succ, ih k hk]
      simp only [BitVec.sub_eq_add_neg, BitVec.add_assoc]

/-- The sum is taken modulo 256 (R8, R72). -/
theorem sum8_toNat (bs : List Byte) : (sum8 bs).toNat = (bs.map BitVec.toNat).sum % 256 := by
  induction bs with
  | nil => rfl
  | cons b bs ih => simp [BitVec.toNat_add, ih]

@[simp] theorem frameBytes_length (ver cmd : Byte) (p : List Byte) : (frameBytes ver cmd p).length = 7 + p.length := by
  simp [frameBytes]; omega

@[simp] theorem frameLen_eq (len : Half) : frameLen len = 7 + len.toNat := by
  simp [frameLen]; omega

end Machine
end Sys2Proof
end

