-- ==== Sys2Proof/Laws/Encoding.lean ====
section
/-! SUPPORT. Laws of the code tables and of the request operands: each decodes to what was encoded, whatever follows. -/
namespace Sys2Proof

@[simp] theorem Op.ofCode_code (o : Op) : Op.ofCode o.code = some o := by cases o <;> decide

@[simp] theorem DpType.ofCode_code (t : DpType) : DpType.ofCode t.code = some t := by cases t <;> decide

/-- A code the table has is that operation's. -/
theorem Op.code_of_ofCode (b : Byte) (o : Op) (h : Op.ofCode b = some o) : o.code = b := by
  have := List.find?_some h
  simpa using this

theorem DpType.code_of_ofCode (b : Byte) (t : DpType) (h : DpType.ofCode b = some t) : t.code = b := by
  have := List.find?_some h
  simpa using this

/-- The six type codes are 0 to 5, and 6 to 255 are reserved (30_encoding.md R77, R79). -/
theorem DpType.ofCode_eq_none_iff (b : Byte) : DpType.ofCode b = none ↔ 5 < b.toNat := by
  simp only [DpType.ofCode, List.find?_eq_none, List.mem_cons, List.not_mem_nil, or_false, forall_eq_or_imp, forall_eq,
    DpType.code, beq_iff_eq]
  constructor
  · rintro ⟨h0, h1, h2, h3, h4, h5⟩
    by_contra hb
    have hb : b.toNat ≤ 5 := by omega
    have key : ∀ n : Nat, n ≤ 5 → b.toNat = n → b = BitVec.ofNat 8 n := by
      intro n hn he
      apply BitVec.eq_of_toNat_eq
      simp [he]; omega
    have : b.toNat = 0 ∨ b.toNat = 1 ∨ b.toNat = 2 ∨ b.toNat = 3 ∨ b.toNat = 4 ∨ b.toNat = 5 := by omega
    rcases this with h | h | h | h | h | h
    · exact h0 (key 0 (by omega) h).symm
    · exact h1 (key 1 (by omega) h).symm
    · exact h2 (key 2 (by omega) h).symm
    · exact h3 (key 3 (by omega) h).symm
    · exact h4 (key 4 (by omega) h).symm
    · exact h5 (key 5 (by omega) h).symm
  · intro h
    refine ⟨?_, ?_, ?_, ?_, ?_, ?_⟩ <;> (intro e; subst e; simp at h)

theorem decodeLen_replicate (k : Nat) (bs : List Byte) (n : Nat) (rest : List Byte)
    (h : decodeLen bs = some (n, rest)) :
    decodeLen (List.replicate k (0xFF : Byte) ++ bs) = some (n + 255 * k, rest) := by
  induction k with
  | zero => simpa using h
  | succ k ih =>
    simp only [List.replicate_succ, List.cons_append, decodeLen, if_true, ih]
    simp; omega

@[simp] theorem decodeLen_encodeLen (n : Nat) (rest : List Byte) : decodeLen (encodeLen n ++ rest) = some (n, rest) := by
  have hlt : n % 255 < 255 := Nat.mod_lt _ (by omega)
  have hlast : decodeLen ([BitVec.ofNat 8 (n % 255)] ++ rest) = some (n % 255, rest) := by
    have hne : BitVec.ofNat 8 (n % 255) ≠ (0xFF : Byte) := by
      intro e
      have := congrArg BitVec.toNat e
      simp at this; omega
    simp only [List.cons_append, List.nil_append, decodeLen, if_neg hne]
    simp; omega
  rw [encodeLen, List.append_assoc, decodeLen_replicate _ _ _ _ hlast]
  congr 2; omega

@[simp] theorem decodeString_encodeString (s rest : List Byte) :
    decodeString (encodeString s ++ rest) = some (s, rest) := by
  simp [decodeString, encodeString, List.append_assoc]

theorem encodeString_length (s : List Byte) : (encodeString s).length = 1 + s.length / 255 + s.length := by
  simp [encodeString, encodeLen]; omega

/-- Decoding a request uses up at least its operation-select code. -/
theorem decodeRequest_nil : decodeRequest [] = .error .truncated := rfl

@[simp] theorem decodeRecord_recordBytes (id : Byte) (ty : DpType) (len : Half) (rest : List Byte) :
    decodeRecord (recordBytes id ty len rest) = .ok (recordInstr ty id len rest, []) := by
  simp [decodeRecord, recordBytes]

@[simp] theorem decodeFrame_frameHeader (ver cmd : Byte) (len : Half) (rest : List Byte) :
    decodeFrame (frameHeader ver cmd len ++ rest) = .ok (.wireFrame ver cmd len, rest) := by
  simp [decodeFrame, frameHeader]

/-- Six bytes that decode as a frame header are that header. -/
theorem frameHeader_of_decodeFrame (bs rest : List Byte) (i : Instr) (h : decodeFrame bs = .ok (i, rest)) :
    ∃ ver cmd len, i = .wireFrame ver cmd len ∧ bs = frameHeader ver cmd len ++ rest := by
  unfold decodeFrame at h
  split at h
  · split at h
    · rename_i b0 b1 ver cmd hh l r hs
      simp only [Except.ok.injEq, Prod.mk.injEq] at h
      refine ⟨ver, cmd, be16 hh l, h.1.symm, ?_⟩
      simp [frameHeader, hs.1, hs.2, h.2]
    · simp at h
  · simp at h

/-- An operand that decodes as a record is that record. -/
theorem recordBytes_of_decodeRecord (bs rest : List Byte) (i : Instr) (h : decodeRecord bs = .ok (i, rest)) :
    ∃ id ty len r, i = recordInstr ty id len r ∧ bs = recordBytes id ty len r := by
  unfold decodeRecord at h
  split at h
  · split at h
    · simp at h
    · rename_i id ty hh l r _ t ht
      simp only [Except.ok.injEq, Prod.mk.injEq] at h
      refine ⟨id, t, be16 hh l, r, h.1.symm, ?_⟩
      simp [recordBytes, DpType.code_of_ofCode _ _ ht]
  · simp at h

end Sys2Proof
end

