-- ==== Sys2Proof/Laws/State.lean ====
section
/-! SUPPORT. One lemma per field per update of the state, each true by definition. -/
namespace Sys2Proof.Machine

@[simp] theorem State.respond_params (r : Response) (s : State) : (s.respond r).params = s.params := rfl
@[simp] theorem State.respond_rx (r : Response) (s : State) : (s.respond r).rx = s.rx := rfl
@[simp] theorem State.respond_tx (r : Response) (s : State) : (s.respond r).tx = s.tx := rfl
@[simp] theorem State.respond_dp (r : Response) (s : State) : (s.respond r).dp = s.dp := rfl
@[simp] theorem State.respond_draws (r : Response) (s : State) : (s.respond r).draws = s.draws := rfl
@[simp] theorem State.respond_env_port (r : Response) (s : State) : (s.respond r).env.port = s.env.port := rfl
@[simp] theorem State.respond_env_rxIn (r : Response) (s : State) : (s.respond r).env.rxIn = s.env.rxIn := rfl
@[simp] theorem State.respond_env_txAns (r : Response) (s : State) : (s.respond r).env.txAns = s.env.txAns := rfl
@[simp] theorem State.respond_env_txlog (r : Response) (s : State) : (s.respond r).env.txlog = s.env.txlog := rfl
@[simp] theorem State.respond_env_events (r : Response) (s : State) : (s.respond r).env.events = s.env.events := rfl
@[simp] theorem State.respond_env_responses (r : Response) (s : State) : (s.respond r).env.responses = s.env.responses ++ [r] := rfl

@[simp] theorem State.emit_params (es : List FrameEvent) (s : State) : (s.emit es).params = s.params := rfl
@[simp] theorem State.emit_rx (es : List FrameEvent) (s : State) : (s.emit es).rx = s.rx := rfl
@[simp] theorem State.emit_tx (es : List FrameEvent) (s : State) : (s.emit es).tx = s.tx := rfl
@[simp] theorem State.emit_dp (es : List FrameEvent) (s : State) : (s.emit es).dp = s.dp := rfl
@[simp] theorem State.emit_draws (es : List FrameEvent) (s : State) : (s.emit es).draws = s.draws := rfl
@[simp] theorem State.emit_env_port (es : List FrameEvent) (s : State) : (s.emit es).env.port = s.env.port := rfl
@[simp] theorem State.emit_env_rxIn (es : List FrameEvent) (s : State) : (s.emit es).env.rxIn = s.env.rxIn := rfl
@[simp] theorem State.emit_env_txAns (es : List FrameEvent) (s : State) : (s.emit es).env.txAns = s.env.txAns := rfl
@[simp] theorem State.emit_env_txlog (es : List FrameEvent) (s : State) : (s.emit es).env.txlog = s.env.txlog := rfl
@[simp] theorem State.emit_env_events (es : List FrameEvent) (s : State) : (s.emit es).env.events = s.env.events ++ es := rfl
@[simp] theorem State.emit_env_responses (es : List FrameEvent) (s : State) : (s.emit es).env.responses = s.env.responses := rfl

@[simp] theorem State.scanned_params (q : ScanResult) (s : State) : (s.scanned q).params = s.params := rfl
@[simp] theorem State.scanned_rx (q : ScanResult) (s : State) : (s.scanned q).rx = q.unit := rfl
@[simp] theorem State.scanned_tx (q : ScanResult) (s : State) : (s.scanned q).tx = s.tx := rfl
@[simp] theorem State.scanned_dp (q : ScanResult) (s : State) : (s.scanned q).dp = s.dp := rfl
@[simp] theorem State.scanned_draws (q : ScanResult) (s : State) : (s.scanned q).draws = s.draws := rfl
@[simp] theorem State.scanned_env_port (q : ScanResult) (s : State) : (s.scanned q).env.port = s.env.port := rfl
@[simp] theorem State.scanned_env_rxIn (q : ScanResult) (s : State) : (s.scanned q).env.rxIn = s.env.rxIn := rfl
@[simp] theorem State.scanned_env_txAns (q : ScanResult) (s : State) : (s.scanned q).env.txAns = s.env.txAns := rfl
@[simp] theorem State.scanned_env_txlog (q : ScanResult) (s : State) : (s.scanned q).env.txlog = s.env.txlog := rfl
@[simp] theorem State.scanned_env_events (q : ScanResult) (s : State) : (s.scanned q).env.events = s.env.events ++ q.events := rfl
@[simp] theorem State.scanned_env_responses (q : ScanResult) (s : State) : (s.scanned q).env.responses = s.env.responses ++ [.scan q.outcome q.outcome.status] := rfl

@[simp] theorem State.txTooLong_params (s : State) : (s.txTooLong).params = s.params := rfl
@[simp] theorem State.txTooLong_rx (s : State) : (s.txTooLong).rx = s.rx := rfl
@[simp] theorem State.txTooLong_tx (s : State) : (s.txTooLong).tx = { s.tx with len := 0, sent := 0, stat := .txTooLong } := rfl
@[simp] theorem State.txTooLong_dp (s : State) : (s.txTooLong).dp = s.dp := rfl
@[simp] theorem State.txTooLong_draws (s : State) : (s.txTooLong).draws = s.draws := rfl
@[simp] theorem State.txTooLong_env_port (s : State) : (s.txTooLong).env.port = s.env.port := rfl
@[simp] theorem State.txTooLong_env_rxIn (s : State) : (s.txTooLong).env.rxIn = s.env.rxIn := rfl
@[simp] theorem State.txTooLong_env_txAns (s : State) : (s.txTooLong).env.txAns = s.env.txAns := rfl
@[simp] theorem State.txTooLong_env_txlog (s : State) : (s.txTooLong).env.txlog = s.env.txlog := rfl
@[simp] theorem State.txTooLong_env_events (s : State) : (s.txTooLong).env.events = s.env.events := rfl
@[simp] theorem State.txTooLong_env_responses (s : State) : (s.txTooLong).env.responses = s.env.responses ++ [.status .txTooLong] := rfl

@[simp] theorem State.dpLoad_params (id : Byte) (ty : DpType) (len : Half) (val : DpVal) (r : Response) (s : State) : (s.dpLoad id ty len val r).params = s.params := rfl
@[simp] theorem State.dpLoad_rx (id : Byte) (ty : DpType) (len : Half) (val : DpVal) (r : Response) (s : State) : (s.dpLoad id ty len val r).rx = s.rx := rfl
@[simp] theorem State.dpLoad_tx (id : Byte) (ty : DpType) (len : Half) (val : DpVal) (r : Response) (s : State) : (s.dpLoad id ty len val r).tx = s.tx := rfl
@[simp] theorem State.dpLoad_dp (id : Byte) (ty : DpType) (len : Half) (val : DpVal) (r : Response) (s : State) : (s.dpLoad id ty len val r).dp = { id := id, type := ty, len := len, val := val, valid := true, stat := .ok } := rfl
@[simp] theorem State.dpLoad_draws (id : Byte) (ty : DpType) (len : Half) (val : DpVal) (r : Response) (s : State) : (s.dpLoad id ty len val r).draws = s.draws := rfl
@[simp] theorem State.dpLoad_env_port (id : Byte) (ty : DpType) (len : Half) (val : DpVal) (r : Response) (s : State) : (s.dpLoad id ty len val r).env.port = s.env.port := rfl
@[simp] theorem State.dpLoad_env_rxIn (id : Byte) (ty : DpType) (len : Half) (val : DpVal) (r : Response) (s : State) : (s.dpLoad id ty len val r).env.rxIn = s.env.rxIn := rfl
@[simp] theorem State.dpLoad_env_txAns (id : Byte) (ty : DpType) (len : Half) (val : DpVal) (r : Response) (s : State) : (s.dpLoad id ty len val r).env.txAns = s.env.txAns := rfl
@[simp] theorem State.dpLoad_env_txlog (id : Byte) (ty : DpType) (len : Half) (val : DpVal) (r : Response) (s : State) : (s.dpLoad id ty len val r).env.txlog = s.env.txlog := rfl
@[simp] theorem State.dpLoad_env_events (id : Byte) (ty : DpType) (len : Half) (val : DpVal) (r : Response) (s : State) : (s.dpLoad id ty len val r).env.events = s.env.events := rfl
@[simp] theorem State.dpLoad_env_responses (id : Byte) (ty : DpType) (len : Half) (val : DpVal) (r : Response) (s : State) : (s.dpLoad id ty len val r).env.responses = s.env.responses ++ [r] := rfl

@[simp] theorem State.dpFail_params (s : State) : (s.dpFail).params = s.params := rfl
@[simp] theorem State.dpFail_rx (s : State) : (s.dpFail).rx = s.rx := rfl
@[simp] theorem State.dpFail_tx (s : State) : (s.dpFail).tx = s.tx := rfl
@[simp] theorem State.dpFail_dp (s : State) : (s.dpFail).dp = DpUnit.unspecified s.draws .malformedDP := rfl
@[simp] theorem State.dpFail_draws (s : State) : (s.dpFail).draws = s.draws + 1 := rfl
@[simp] theorem State.dpFail_env_port (s : State) : (s.dpFail).env.port = s.env.port := rfl
@[simp] theorem State.dpFail_env_rxIn (s : State) : (s.dpFail).env.rxIn = s.env.rxIn := rfl
@[simp] theorem State.dpFail_env_txAns (s : State) : (s.dpFail).env.txAns = s.env.txAns := rfl
@[simp] theorem State.dpFail_env_txlog (s : State) : (s.dpFail).env.txlog = s.env.txlog := rfl
@[simp] theorem State.dpFail_env_events (s : State) : (s.dpFail).env.events = s.env.events := rfl
@[simp] theorem State.dpFail_env_responses (s : State) : (s.dpFail).env.responses = s.env.responses ++ [.status .malformedDP] := rfl

@[simp] theorem State.take_params (rest : List Byte) (s : State) : (s.take rest).params = s.params := rfl
@[simp] theorem State.take_rx (rest : List Byte) (s : State) : (s.take rest).rx = s.rx := rfl
@[simp] theorem State.take_tx (rest : List Byte) (s : State) : (s.take rest).tx = s.tx := rfl
@[simp] theorem State.take_dp (rest : List Byte) (s : State) : (s.take rest).dp = s.dp := rfl
@[simp] theorem State.take_draws (rest : List Byte) (s : State) : (s.take rest).draws = s.draws := rfl
@[simp] theorem State.take_env_port (rest : List Byte) (s : State) : (s.take rest).env.port = rest := rfl
@[simp] theorem State.take_env_rxIn (rest : List Byte) (s : State) : (s.take rest).env.rxIn = s.env.rxIn := rfl
@[simp] theorem State.take_env_txAns (rest : List Byte) (s : State) : (s.take rest).env.txAns = s.env.txAns := rfl
@[simp] theorem State.take_env_txlog (rest : List Byte) (s : State) : (s.take rest).env.txlog = s.env.txlog := rfl
@[simp] theorem State.take_env_events (rest : List Byte) (s : State) : (s.take rest).env.events = s.env.events := rfl
@[simp] theorem State.take_env_responses (rest : List Byte) (s : State) : (s.take rest).env.responses = s.env.responses := rfl

@[simp] theorem State.withPort_params (bs : List Byte) (s : State) : (s.withPort bs).params = s.params := rfl
@[simp] theorem State.withPort_rx (bs : List Byte) (s : State) : (s.withPort bs).rx = s.rx := rfl
@[simp] theorem State.withPort_tx (bs : List Byte) (s : State) : (s.withPort bs).tx = s.tx := rfl
@[simp] theorem State.withPort_dp (bs : List Byte) (s : State) : (s.withPort bs).dp = s.dp := rfl
@[simp] theorem State.withPort_draws (bs : List Byte) (s : State) : (s.withPort bs).draws = s.draws := rfl
@[simp] theorem State.withPort_env_port (bs : List Byte) (s : State) : (s.withPort bs).env.port = bs := rfl
@[simp] theorem State.withPort_env_rxIn (bs : List Byte) (s : State) : (s.withPort bs).env.rxIn = s.env.rxIn := rfl
@[simp] theorem State.withPort_env_txAns (bs : List Byte) (s : State) : (s.withPort bs).env.txAns = s.env.txAns := rfl
@[simp] theorem State.withPort_env_txlog (bs : List Byte) (s : State) : (s.withPort bs).env.txlog = s.env.txlog := rfl
@[simp] theorem State.withPort_env_events (bs : List Byte) (s : State) : (s.withPort bs).env.events = s.env.events := rfl
@[simp] theorem State.withPort_env_responses (bs : List Byte) (s : State) : (s.withPort bs).env.responses = s.env.responses := rfl

@[simp] theorem RxUnit.raise_buf (st : Status) (r : RxUnit) : (r.raise st).buf = r.buf := rfl
@[simp] theorem RxUnit.raise_cnt (st : Status) (r : RxUnit) : (r.raise st).cnt = r.cnt := rfl
@[simp] theorem RxUnit.raise_stat (st : Status) (r : RxUnit) : (r.raise st).stat = st := rfl

@[simp] theorem TxUnit.raise_buf (st : Status) (t : TxUnit) : (t.raise st).buf = t.buf := rfl
@[simp] theorem TxUnit.raise_len (st : Status) (t : TxUnit) : (t.raise st).len = t.len := rfl
@[simp] theorem TxUnit.raise_sent (st : Status) (t : TxUnit) : (t.raise st).sent = t.sent := rfl
@[simp] theorem TxUnit.raise_stat (st : Status) (t : TxUnit) : (t.raise st).stat = st := rfl

@[simp] theorem DpUnit.raise_id (st : Status) (d : DpUnit) : (d.raise st).id = d.id := rfl
@[simp] theorem DpUnit.raise_type (st : Status) (d : DpUnit) : (d.raise st).type = d.type := rfl
@[simp] theorem DpUnit.raise_len (st : Status) (d : DpUnit) : (d.raise st).len = d.len := rfl
@[simp] theorem DpUnit.raise_val (st : Status) (d : DpUnit) : (d.raise st).val = d.val := rfl
@[simp] theorem DpUnit.raise_valid (st : Status) (d : DpUnit) : (d.raise st).valid = d.valid := rfl
@[simp] theorem DpUnit.raise_stat (st : Status) (d : DpUnit) : (d.raise st).stat = st := rfl

@[simp] theorem RxUnit.clear_buf (r : RxUnit) : r.clear.buf = r.buf := rfl
@[simp] theorem RxUnit.clear_cnt (r : RxUnit) : r.clear.cnt = 0 := rfl
@[simp] theorem RxUnit.clear_stat (r : RxUnit) : r.clear.stat = r.stat := rfl
@[simp] theorem RxUnit.dropFront_cnt (k : Nat) (r : RxUnit) : (r.dropFront k).cnt = r.cnt - k := rfl
@[simp] theorem RxUnit.dropFront_stat (k : Nat) (r : RxUnit) : (r.dropFront k).stat = r.stat := rfl

@[simp] theorem DpUnit.unspecified_valid (n : Nat) (st : Status) : (DpUnit.unspecified n st).valid = false := rfl
@[simp] theorem DpUnit.unspecified_stat (n : Nat) (st : Status) : (DpUnit.unspecified n st).stat = st := rfl
@[simp] theorem DpUnit.unspecified_val (n : Nat) (st : Status) :
    (DpUnit.unspecified n st).val = (Config.freeDpVal n).fit := rfl

end Sys2Proof.Machine
end

