-- ==== Sys2Proof/Laws/Dp.lean ====
section
/-! SUPPORT. The DP unit: the truncations, the staging area, and that every payload the decoder reads fits its variant. -/
namespace Sys2Proof.Machine
open Sys2Proof

/-! ### Truncation (42_dp_setters.md R157) -/

theorem untilNul_no_nul (s : List Byte) : (0 : Byte) ∉ untilNul s := by
  intro h
  have := List.mem_takeWhile_imp h
  simp at this

theorem untilNul_length_le (s : List Byte) : (untilNul s).length ≤ s.length :=
  (List.takeWhile_sublist _).length_le

/-- The content ends at the least index of a 0x00 (R154). -/
theorem untilNul_eq_take (s : List Byte) (z : Nat) (hz : z ≤ s.length) (hlt : ∀ i, i < z → s.getD i 0 ≠ 0)
    (hend : z = s.length ∨ s.getD z 0 = 0) : untilNul s = s.take z := by
  induction s generalizing z with
  | nil => simp [untilNul]
  | cons b s ih =>
    cases z with
    | zero =>
      have : b = 0 := by simpa using hend
      simp [untilNul, this]
    | succ z =>
      have hb : ¬ b = 0#8 := by simpa using hlt 0 (by omega)
      have ih' := ih z (by simpa using hz) (fun i hi => by simpa using hlt (i + 1) (by omega)) (by simpa using hend)
      have hp : (b != 0) = true := by simpa using hb
      simp only [untilNul] at ih' ⊢
      rw [List.takeWhile_cons, if_pos hp, ih', List.take_succ_cons]

/-- A string without 0x00 is its own content. -/
theorem untilNul_of_no_nul (s : List Byte) (h : (0 : Byte) ∉ s) : untilNul s = s := by
  apply List.takeWhile_eq_self_iff.mpr
  intro b hb
  have : b ≠ 0 := fun e => h (e ▸ hb)
  simpa using this

theorem keepString_length_le (s : List Byte) : (keepString s).length ≤ 63 := by simp [keepString]
theorem keepString_no_nul (s : List Byte) : (0 : Byte) ∉ keepString s :=
  fun h => untilNul_no_nul s (List.mem_of_mem_take h)
theorem keepRaw_length (b : List Byte) : (keepRaw b).length = min 64 b.length := by simp [keepRaw]
theorem keepBitmap_length (b : List Byte) : (keepBitmap b).length = min 4 b.length := by simp [keepBitmap]

/-! ### Staging (43_dp_codec.md R173) -/

theorem stage_length (p : List Byte) (h : p.length ≤ 64) : (stage p).length = 64 := by simp [stage]; omega

theorem stage_take (p : List Byte) : (stage p).take p.length = p := by simp [stage]

theorem stage_getD (p : List Byte) (i : Nat) : (stage p).getD i 0 = p.getD i 0 := by
  simp only [stage, List.getD_eq_getElem?_getD]
  by_cases h : i < p.length
  · rw [List.getElem?_append_left h]
  · rw [List.getElem?_append_right (by omega), List.getElem?_eq_none (by omega : p.length ≤ i)]
    by_cases h2 : i - p.length < Config.dpCap - p.length
    · rw [List.getElem?_replicate, if_pos h2]; rfl
    · rw [List.getElem?_eq_none (by simpa using h2)]

theorem stage_take_le (p : List Byte) (k : Nat) (h : k ≤ p.length) : (stage p).take k = p.take k := by
  simp [stage, List.take_append_of_le_length h]

theorem readPayload_type (ty : DpType) (n : Nat) (st : List Byte) : (readPayload ty n st).type = ty := by
  cases ty <;> rfl

/-- A payload read from the stage fits its variant, and RAW and BITMAP hold exactly the declared bytes (R176). -/
theorem readPayload_fits (ty : DpType) (len : Half) (p : List Byte) (hp : p.length = len.toNat) (h : len.toNat ≤ 64) :
    (readPayload ty len.toNat (stage p)).fits = true ∧ (readPayload ty len.toNat (stage p)).hasLen len = true := by
  have hl := stage_length p (by omega)
  cases ty with
  | raw => simp [readPayload, readRaw, DpVal.fits, DpVal.hasLen, hl, h]
  | bool => exact ⟨rfl, rfl⟩
  | value => exact ⟨rfl, rfl⟩
  | string =>
    refine ⟨?_, rfl⟩
    have h1 := untilNul_length_le ((stage p).take (min len.toNat 63))
    have h2 := untilNul_no_nul ((stage p).take (min len.toNat 63))
    have h3 : ((stage p).take (min len.toNat 63)).length ≤ 63 := by simp
    simp only [readPayload, readString, DpVal.fits, Bool.and_eq_true, decide_eq_true_eq, Config.strMax]
    exact ⟨by omega, h2⟩
  | enum => exact ⟨rfl, rfl⟩
  | bitmap => simp [readPayload, readBitmap, DpVal.fits, DpVal.hasLen, hl, h]

theorem DpVal.fit_fits (v : DpVal) : v.fit.fits = true := by
  cases v with
  | raw b => simp [DpVal.fit, DpVal.fits, keepRaw]
  | bool t => rfl
  | value v => rfl
  | str s =>
    simp only [DpVal.fit, DpVal.fits, Bool.and_eq_true, decide_eq_true_eq]
    exact ⟨keepString_length_le s, keepString_no_nul s⟩
  | enum e => rfl
  | bitmap b => simp [DpVal.fit, DpVal.fits]

/-! ### The decoder -/

/-- Everything `DP.DEC` can do with a record of a legal type (R173): fail, or load the data point. -/
theorem State.dpRecord_cases (id : Byte) (ty : DpType) (len : Half) (rest : List Byte) (s : State) :
    ((64 < len.toNat ∨ rest.length < len.toNat) ∧ s.dpRecord id ty len rest = s.dpFail) ∨
    (len.toNat ≤ 64 ∧ len.toNat ≤ rest.length ∧
      s.dpRecord id ty len rest =
        s.dpLoad id ty len (readPayload ty len.toNat (stage (rest.take len.toNat))) (.decoded (4 + len.toNat))) := by
  unfold State.dpRecord
  split
  · exact .inl ⟨.inl ‹_›, rfl⟩
  · split
    · exact .inl ⟨.inr ‹_›, rfl⟩
    · rename_i h1 h2
      exact .inr ⟨Nat.not_lt.mp h1, by omega, rfl⟩

/-- What a complete record of a legal type loads, per type, in terms of its payload `p` (R173 to R176). -/
theorem State.dpRecord_loads (s : State) (id : Byte) (len : Half) (rest p : List Byte) (ty : DpType) (val : DpVal)
    (h1 : len.toNat ≤ 64) (h2 : len.toNat ≤ rest.length) (hp : p = rest.take len.toNat)
    (h : (ty = .raw ∧ val = .raw p) ∨ (ty = .bool ∧ val = .bool (p.getD 0 0 != 0)) ∨
      (ty = .value ∧ val = .value (s32 (p.getD 0 0) (p.getD 1 0) (p.getD 2 0) (p.getD 3 0))) ∨
      (ty = .string ∧ val = .str (untilNul (p.take 63))) ∨
      (ty = .enum ∧ val = .enum (p.getD 0 0)) ∨ (ty = .bitmap ∧ val = .bitmap p)) :
    s.dpRecord id ty len rest = s.dpLoad id ty len val (.decoded (4 + len.toNat)) := by
  have hl : p.length = len.toNat := by simp [hp, h2]
  rcases State.dpRecord_cases id ty len rest s with ⟨h3, _⟩ | ⟨_, _, h3⟩
  · omega
  · rw [h3, ← hp]
    congr 1
    rcases h with ⟨rfl, rfl⟩ | ⟨rfl, rfl⟩ | ⟨rfl, rfl⟩ | ⟨rfl, rfl⟩ | ⟨rfl, rfl⟩ | ⟨rfl, rfl⟩
    · simp [readPayload, readRaw, ← hl, stage_take]
    · simp only [readPayload, readBool, stage_getD]
    · simp only [readPayload, readValue, stage_getD]
    · simp only [readPayload, readString, Config.strMax]
      rw [stage_take_le p _ (by omega), ← hl, Nat.min_comm, ← List.take_take]
      simp
    · simp only [readPayload, readEnum, stage_getD]
    · simp [readPayload, readBitmap, ← hl, stage_take]

@[simp] theorem State.dpDecode_recordBytes (id : Byte) (ty : DpType) (len : Half) (rest : List Byte) (s : State) :
    s.dpDecode (recordBytes id ty len rest) = s.dpRecord id ty len rest := by
  simp [State.dpDecode, recordBytes]

theorem State.dpDecode_short (bs : List Byte) (s : State) (h : bs.length < 4) : s.dpDecode bs = s.dpFail := by
  unfold State.dpDecode
  split
  · simp at h
    omega
  · rfl

/-- Everything `DP.DEC` can do (R173). -/
theorem State.dpDecode_cases (bs : List Byte) (s : State) :
    s.dpDecode bs = s.dpFail ∨
    ∃ id ty len rest, bs = recordBytes id ty len rest ∧ len.toNat ≤ 64 ∧ len.toNat ≤ rest.length ∧
      s.dpDecode bs =
        s.dpLoad id ty len (readPayload ty len.toNat (stage (rest.take len.toNat))) (.decoded (4 + len.toNat)) := by
  unfold State.dpDecode
  split
  · rename_i id ty h l rest
    split
    · exact .inl rfl
    · rename_i t ht
      rcases State.dpRecord_cases id t (be16 h l) rest s with ⟨_, h2⟩ | ⟨h1, h2, h3⟩
      · exact .inl h2
      · refine .inr ⟨id, t, be16 h l, rest, ?_, h1, h2, h3⟩
        simp [recordBytes, DpType.code_of_ofCode _ _ ht]
  · exact .inl rfl

end Sys2Proof.Machine
end

