-- ==== Sys2Proof/Laws/Memory.lean ====
section
/-! SUPPORT. Laws of the byte buffers: a read after a write, ranges, the canonical form and the bound. -/
namespace Sys2Proof.Machine

theorem Memory.read_cons_same (m : Memory) (a : Nat) (b : Byte) (h : Memory.read m a = unwritten) :
    Memory.read (Memory.cons a b m) a = b := by
  unfold Memory.cons
  split
  · rw [h]; exact (‹b = unwritten›).symm
  · simp [Memory.read]

theorem Memory.read_cons_other (m : Memory) (a c : Nat) (b : Byte) (h : c ≠ a) :
    Memory.read (Memory.cons a b m) c = Memory.read m c := by
  unfold Memory.cons
  split
  · rfl
  · simp [Memory.read, show a ≠ c from fun e => h e.symm]

/-- Below its first index a canonical buffer lists nothing. -/
theorem Memory.read_of_lt (lo : Nat) (m : Memory) (h : Memory.wfFrom lo m = true) (a : Nat) (ha : a < lo) :
    Memory.read m a = unwritten := by
  induction m generalizing lo with
  | nil => rfl
  | cons c m ih =>
    obtain ⟨k, b⟩ := c
    simp only [Memory.wfFrom, Bool.and_eq_true, decide_eq_true_eq] at h
    have hk : k ≠ a := by omega
    simp only [Memory.read, if_neg hk]
    exact ih (k + 1) h.2 (by omega)

theorem Memory.wfFrom_mono (lo hi : Nat) (m : Memory) (hle : lo ≤ hi) (h : Memory.wfFrom hi m = true) :
    Memory.wfFrom lo m = true := by
  cases m with
  | nil => rfl
  | cons c m =>
    obtain ⟨k, b⟩ := c
    simp only [Memory.wfFrom, Bool.and_eq_true, decide_eq_true_eq] at h ⊢
    exact ⟨⟨by omega, h.1.2⟩, h.2⟩

/-- Read after write at another index; no canonical form needed. -/
theorem Memory.read_write_other (m : Memory) (a c : Nat) (b : Byte) (h : c ≠ a) :
    Memory.read (Memory.write m a b) c = Memory.read m c := by
  induction m with
  | nil => simp [Memory.write, Memory.read_cons_other _ _ _ _ h, Memory.read]
  | cons x m ih =>
    obtain ⟨k, d⟩ := x
    simp only [Memory.write]
    split
    · rw [Memory.read_cons_other _ _ _ _ h]
    · split
      · rename_i hk
        rw [Memory.read_cons_other _ _ _ _ h]
        simp [Memory.read, show k ≠ c by omega]
      · simp [Memory.read, ih]

/-- Read after write at the same index. -/
theorem Memory.read_write_same (m : Memory) (a : Nat) (b : Byte) (hw : Memory.wf m = true) :
    Memory.read (Memory.write m a b) a = b := by
  suffices ∀ lo, Memory.wfFrom lo m = true → Memory.read (Memory.write m a b) a = b from this 0 hw
  induction m with
  | nil => intro _ _; exact Memory.read_cons_same [] a b rfl
  | cons x m ih =>
    obtain ⟨k, d⟩ := x
    intro lo h
    have h' := h
    simp only [Memory.wfFrom, Bool.and_eq_true, decide_eq_true_eq] at h
    have htail : Memory.wf m = true := Memory.wfFrom_mono 0 (k + 1) m (by omega) h.2
    simp only [Memory.write]
    split
    · rename_i hlt
      apply Memory.read_cons_same
      have : Memory.wfFrom k ((k, d) :: m) = true := by simp [Memory.wfFrom, h.1.2, h.2]
      exact Memory.read_of_lt k _ this a hlt
    · split
      · rename_i hk
        apply Memory.read_cons_same
        exact Memory.read_of_lt (k + 1) m h.2 a (by omega)
      · rename_i hk
        simp only [Memory.read, if_neg (fun e : k = a => hk e.symm)]
        exact ih htail (k + 1) h.2

theorem Memory.wfFrom_cons (lo a : Nat) (b : Byte) (m : Memory) (hlo : lo ≤ a) (h : Memory.wfFrom (a + 1) m = true) :
    Memory.wfFrom lo (Memory.cons a b m) = true := by
  unfold Memory.cons
  split
  · exact Memory.wfFrom_mono lo (a + 1) m (by omega) h
  · rename_i hb
    simp [Memory.wfFrom, hlo, hb, h]

theorem Memory.wfFrom_write (lo : Nat) (m : Memory) (a : Nat) (b : Byte) (hlo : lo ≤ a)
    (h : Memory.wfFrom lo m = true) : Memory.wfFrom lo (Memory.write m a b) = true := by
  induction m generalizing lo with
  | nil => exact Memory.wfFrom_cons lo a b [] hlo rfl
  | cons x m ih =>
    obtain ⟨k, d⟩ := x
    simp only [Memory.wfFrom, Bool.and_eq_true, decide_eq_true_eq] at h
    simp only [Memory.write]
    split
    · rename_i hlt
      apply Memory.wfFrom_cons lo a b _ hlo
      simp [Memory.wfFrom, h.1.2, h.2]; omega
    · split
      · rename_i hk
        subst hk
        exact Memory.wfFrom_cons lo a b m hlo h.2
      · simp only [Memory.wfFrom, Bool.and_eq_true, decide_eq_true_eq]
        exact ⟨h.1, ih (k + 1) (by omega) h.2⟩

/-- A write keeps the canonical form. -/
@[simp] theorem Memory.wf_write (m : Memory) (a : Nat) (b : Byte) (h : Memory.wf m = true) :
    Memory.wf (Memory.write m a b) = true := Memory.wfFrom_write 0 m a b (Nat.zero_le _) h

theorem Memory.below_cons (cap a : Nat) (b : Byte) (m : Memory) (ha : a < cap) (h : Memory.below cap m = true) :
    Memory.below cap (Memory.cons a b m) = true := by
  unfold Memory.cons
  split
  · exact h
  · simp only [Memory.below, List.all_cons, Bool.and_eq_true, decide_eq_true_eq]; exact ⟨ha, h⟩

/-- A write below the bound keeps the bound. -/
theorem Memory.below_write (cap : Nat) (m : Memory) (a : Nat) (b : Byte) (ha : a < cap)
    (h : Memory.below cap m = true) : Memory.below cap (Memory.write m a b) = true := by
  induction m with
  | nil => exact Memory.below_cons cap a b [] ha h
  | cons x m ih =>
    obtain ⟨k, d⟩ := x
    have hx : k < cap ∧ Memory.below cap m = true := by
      simpa [Memory.below] using h
    simp only [Memory.write]
    split
    · exact Memory.below_cons cap a b _ ha h
    · split
      · exact Memory.below_cons cap a b m ha hx.2
      · simp only [Memory.below, List.all_cons, Bool.and_eq_true, decide_eq_true_eq]
        exact ⟨hx.1, ih hx.2⟩

/-! ### Ranges -/

@[simp] theorem Memory.readRange_zero (m : Memory) (a : Nat) : Memory.readRange m a 0 = [] := rfl

theorem Memory.readRange_succ (m : Memory) (a n : Nat) :
    Memory.readRange m a (n + 1) = Memory.read m a :: Memory.readRange m (a + 1) n := rfl

@[simp] theorem Memory.readRange_length (m : Memory) (a n : Nat) : (Memory.readRange m a n).length = n := by
  induction n generalizing a with
  | zero => rfl
  | succ n ih => simp [Memory.readRange, ih]

theorem Memory.readRange_getElem (m : Memory) (a n i : Nat) (h : i < (Memory.readRange m a n).length) :
    (Memory.readRange m a n)[i] = Memory.read m (a + i) := by
  induction n generalizing a i with
  | zero => simp at h
  | succ n ih =>
    cases i with
    | zero => simp [Memory.readRange]
    | succ i =>
      have hi : i < (Memory.readRange m (a + 1) n).length := by simpa using h
      simp only [Memory.readRange, List.getElem_cons_succ, ih (a + 1) i hi]
      congr 1; omega

theorem Memory.readRange_ext (m n : Memory) (a c k : Nat) (h : ∀ i, i < k → Memory.read m (a + i) = Memory.read n (c + i)) :
    Memory.readRange m a k = Memory.readRange n c k := by
  apply List.ext_getElem (by simp)
  intro i h1 h2
  rw [Memory.readRange_getElem, Memory.readRange_getElem]
  exact h i (by simpa using h1)

theorem Memory.readRange_append (m : Memory) (a j k : Nat) :
    Memory.readRange m a (j + k) = Memory.readRange m a j ++ Memory.readRange m (a + j) k := by
  induction j generalizing a with
  | zero => simp
  | succ j ih =>
    rw [show j + 1 + k = (j + k) + 1 by omega, Memory.readRange_succ, ih, Memory.readRange_succ,
      show a + 1 + j = a + (j + 1) by omega]
    rfl

theorem Memory.readRange_take (m : Memory) (a j k : Nat) (h : j ≤ k) :
    (Memory.readRange m a k).take j = Memory.readRange m a j := by
  obtain ⟨d, rfl⟩ := Nat.exists_eq_add_of_le h
  rw [Memory.readRange_append, List.take_append_of_le_length (by simp)]
  simp [List.take_of_length_le]

theorem Memory.readRange_drop (m : Memory) (a j k : Nat) (h : j ≤ k) :
    (Memory.readRange m a k).drop j = Memory.readRange m (a + j) (k - j) := by
  obtain ⟨d, rfl⟩ := Nat.exists_eq_add_of_le h
  rw [Memory.readRange_append, List.drop_append_of_le_length (by simp)]
  simp [List.drop_of_length_le]

/-- Outside the written range a read gives what it gave. -/
theorem Memory.read_writeRange_other (m : Memory) (a c : Nat) (bs : List Byte) (h : c < a ∨ a + bs.length ≤ c) :
    Memory.read (Memory.writeRange m a bs) c = Memory.read m c := by
  induction bs generalizing m a with
  | nil => rfl
  | cons b bs ih =>
    simp only [List.length_cons] at h
    simp only [Memory.writeRange]
    rw [ih _ _ (by omega), Memory.read_write_other _ _ _ _ (by omega)]

@[simp] theorem Memory.wf_writeRange (m : Memory) (a : Nat) (bs : List Byte) (h : Memory.wf m = true) :
    Memory.wf (Memory.writeRange m a bs) = true := by
  induction bs generalizing m a with
  | nil => exact h
  | cons b bs ih => exact ih _ _ (Memory.wf_write m a b h)

theorem Memory.below_writeRange (cap : Nat) (m : Memory) (a : Nat) (bs : List Byte) (ha : a + bs.length ≤ cap)
    (h : Memory.below cap m = true) : Memory.below cap (Memory.writeRange m a bs) = true := by
  induction bs generalizing m a with
  | nil => exact h
  | cons b bs ih =>
    simp only [List.length_cons] at ha
    exact ih _ _ (by omega) (Memory.below_write cap m a b (by omega) h)

/-- Inside the written range a read gives the byte written. -/
theorem Memory.read_writeRange (m : Memory) (a : Nat) (bs : List Byte) (hw : Memory.wf m = true) (i : Nat)
    (hi : i < bs.length) : Memory.read (Memory.writeRange m a bs) (a + i) = bs[i] := by
  induction bs generalizing m a i with
  | nil => simp at hi
  | cons b bs ih =>
    simp only [Memory.writeRange]
    cases i with
    | zero =>
      rw [Memory.read_writeRange_other _ _ _ _ (by omega)]
      simpa using Memory.read_write_same m a b hw
    | succ i =>
      have := ih (Memory.write m a b) (a + 1) (Memory.wf_write m a b hw) i (by simpa using hi)
      rw [show a + (i + 1) = a + 1 + i by omega, this]; rfl

theorem Memory.readRange_writeRange (m : Memory) (a : Nat) (bs : List Byte) (hw : Memory.wf m = true) :
    Memory.readRange (Memory.writeRange m a bs) a bs.length = bs := by
  apply List.ext_getElem (by simp)
  intro i h1 h2
  rw [Memory.readRange_getElem, Memory.read_writeRange m a bs hw i h2]

end Sys2Proof.Machine
end

