-- ==== Sys2Proof/Laws/Rx.lean ====
section
/-! SUPPORT. The RX unit in terms of the bytes it holds: an append, a drop and one step of parsing are functions of
`RXBUF[0..RXCNT-1]` and of nothing else in the buffer (10_state.md R22, R23). -/
namespace Sys2Proof.Machine
open Sys2Proof

@[simp] theorem RxUnit.held_length (r : RxUnit) : r.held.length = r.cnt := by simp [RxUnit.held]

theorem RxUnit.held_getD (r : RxUnit) (i : Nat) (h : i < r.cnt) : r.held.getD i 0 = Memory.read r.buf i := by
  have hi : i < r.held.length := by simpa using h
  rw [List.getD_eq_getElem _ _ hi]
  simp only [RxUnit.held]
  rw [Memory.readRange_getElem]; simp

theorem RxUnit.held_eq_readRange (r : RxUnit) (a n : Nat) (h : a + n ≤ r.cnt) :
    Memory.readRange r.buf a n = (r.held.drop a).take n := by
  rw [RxUnit.held, Memory.readRange_drop _ _ _ _ (by omega), Memory.readRange_take _ _ _ _ (by omega)]
  simp

theorem RxUnit.held_take (r : RxUnit) (n : Nat) (h : n ≤ r.cnt) : r.held.take n = Memory.readRange r.buf 0 n := by
  rw [RxUnit.held, Memory.readRange_take _ _ _ _ h]

@[simp] theorem RxUnit.held_raise (st : Status) (r : RxUnit) : (r.raise st).held = r.held := rfl
@[simp] theorem RxUnit.held_clear (r : RxUnit) : r.clear.held = [] := rfl

/-! ### Append (R101) -/

theorem RxUnit.push_full (cap : Nat) (b : Byte) (r : RxUnit) (h : cap ≤ r.cnt) :
    r.push cap b = { r with cnt := 0, stat := .malformedFrame } := by
  simp [RxUnit.push, h, RxUnit.clear, RxUnit.raise]

theorem RxUnit.push_room (cap : Nat) (b : Byte) (r : RxUnit) (h : r.cnt < cap) :
    r.push cap b = { buf := Memory.write r.buf r.cnt b, cnt := r.cnt + 1, stat := .ok } := by
  simp [RxUnit.push, Nat.not_le.mpr h]

/-- An append either empties the buffer with `MalformedFrame` or adds one byte with `OK`. -/
theorem RxUnit.push_cases (cap : Nat) (b : Byte) (r : RxUnit) :
    (cap ≤ r.cnt ∧ (r.push cap b).stat = .malformedFrame ∧ (r.push cap b).cnt = 0 ∧ (r.push cap b).buf = r.buf) ∨
    (r.cnt < cap ∧ (r.push cap b).stat = .ok ∧ (r.push cap b).cnt = r.cnt + 1 ∧
      (r.push cap b).buf = Memory.write r.buf r.cnt b) := by
  by_cases h : cap ≤ r.cnt
  · exact .inl ⟨h, by simp [RxUnit.push_full cap b r h]⟩
  · exact .inr ⟨by omega, by simp [RxUnit.push_room cap b r (by omega)]⟩

theorem RxUnit.held_push (cap : Nat) (b : Byte) (r : RxUnit) (h : r.cnt < cap) (hw : Memory.wf r.buf = true) :
    (r.push cap b).held = r.held ++ [b] := by
  rw [RxUnit.push_room cap b r h]
  simp only [RxUnit.held]
  rw [Memory.readRange_append]
  simp only [Nat.zero_add, Memory.readRange_succ, Memory.readRange_zero, Memory.read_write_same _ _ _ hw]
  congr 1
  apply Memory.readRange_ext
  intro i hi
  rw [Memory.read_write_other _ _ _ _ (by omega)]

/-! ### Compaction (R63) -/

theorem RxUnit.dropFront_read (k : Nat) (r : RxUnit) (hw : Memory.wf r.buf = true) (i : Nat) (hi : i < r.cnt - k) :
    Memory.read (r.dropFront k).buf i = Memory.read r.buf (i + k) := by
  have := Memory.read_writeRange r.buf 0 (Memory.readRange r.buf k (r.cnt - k)) hw i (by simpa using hi)
  simp only [Nat.zero_add] at this
  rw [RxUnit.dropFront, this, Memory.readRange_getElem, Nat.add_comm]

theorem RxUnit.dropFront_read_other (k : Nat) (r : RxUnit) (i : Nat) (hi : r.cnt - k ≤ i) :
    Memory.read (r.dropFront k).buf i = Memory.read r.buf i := by
  rw [RxUnit.dropFront]
  exact Memory.read_writeRange_other _ _ _ _ (.inr (by simpa using hi))

theorem RxUnit.held_dropFront (k : Nat) (r : RxUnit) (hw : Memory.wf r.buf = true) :
    (r.dropFront k).held = r.held.drop k := by
  apply List.ext_getElem (by simp)
  intro i h1 h2
  have hi : i < r.cnt - k := by simpa using h1
  simp only [RxUnit.held, List.getElem_drop, Memory.readRange_getElem, Nat.zero_add]
  rw [RxUnit.dropFront_read k r hw i hi, Nat.add_comm]

@[simp] theorem RxUnit.dropFront_wf (k : Nat) (r : RxUnit) (hw : Memory.wf r.buf = true) :
    Memory.wf (r.dropFront k).buf = true := by
  simp [RxUnit.dropFront, hw]

theorem RxUnit.dropFront_below (cap k : Nat) (r : RxUnit) (hc : r.cnt ≤ cap) (hb : Memory.below cap r.buf = true) :
    Memory.below cap (r.dropFront k).buf = true := by
  simp only [RxUnit.dropFront]
  exact Memory.below_writeRange _ _ _ _ (by simp; omega) hb

/-! ### One step of parsing on a list of bytes -/

/-- What R102 does to the held bytes `h`: the outcome, the bytes left, the events. -/
structure ListScan where
  outcome : ScanOutcome
  left : List Byte
  events : List FrameEvent
  deriving DecidableEq

def listCandidate (p : Params) (ver cmd : Byte) (len : Half) (h : List Byte) : ListScan :=
  if p.rxCap < 7 + len.toNat then { outcome := .tooLong, left := [], events := [] }
  else if h.length < 7 + len.toNat then { outcome := .waitBody, left := h, events := [] }
  else if sum8 (h.take (6 + len.toNat)) ≠ h.getD (6 + len.toNat) 0 then
    { outcome := .badSum
      left := (match p.csumPolicy with | .hold => h | .drop1 => h.drop 1)
      events := [] }
  else
    { outcome := .dispatch
      left := h.drop (7 + len.toNat)
      events := [{ ver := ver, cmd := cmd, len := len, payload := (h.drop 6).take len.toNat }] }

def listScan (p : Params) (h : List Byte) : ListScan :=
  if h.length < 6 then { outcome := .waitHdr, left := h, events := [] }
  else if h.getD 0 0 ≠ 0x55 ∨ h.getD 1 0 ≠ 0xAA then { outcome := .drop, left := h.drop 1, events := [] }
  else listCandidate p (h.getD 2 0) (h.getD 3 0) (be16 (h.getD 4 0) (h.getD 5 0)) h

theorem RxUnit.candidate_list (p : Params) (ver cmd : Byte) (len : Half) (r : RxUnit) (hw : Memory.wf r.buf = true) :
    (r.candidate p ver cmd len).outcome = (listCandidate p ver cmd len r.held).outcome ∧
    (r.candidate p ver cmd len).unit.held = (listCandidate p ver cmd len r.held).left ∧
    (r.candidate p ver cmd len).events = (listCandidate p ver cmd len r.held).events := by
  unfold RxUnit.candidate listCandidate
  simp only [frameLen_eq, Config.hdrLen, RxUnit.held_length]
  split
  · simp
  · split
    · simp
    · rename_i h1 h2
      rw [RxUnit.held_take _ _ (by omega), RxUnit.held_getD _ _ (by omega),
        RxUnit.held_eq_readRange r 6 len.toNat (by omega)]
      split
      · unfold RxUnit.badSum
        cases p.csumPolicy <;> simp [RxUnit.held_dropFront, hw]
      · simp [RxUnit.held_dropFront, hw]

theorem RxUnit.scan_list (p : Params) (r : RxUnit) (hw : Memory.wf r.buf = true) :
    (r.scan p).outcome = (listScan p r.held).outcome ∧
    (r.scan p).unit.held = (listScan p r.held).left ∧
    (r.scan p).events = (listScan p r.held).events := by
  unfold RxUnit.scan listScan
  simp only [Config.hdrLen, Config.sync1, Config.sync2, RxUnit.held_length]
  split
  · simp
  · rename_i h6
    rw [RxUnit.held_getD _ 0 (by omega), RxUnit.held_getD _ 1 (by omega), RxUnit.held_getD _ 2 (by omega),
      RxUnit.held_getD _ 3 (by omega), RxUnit.held_getD _ 4 (by omega), RxUnit.held_getD _ 5 (by omega)]
    split
    · simp [RxUnit.held_dropFront, hw]
    · exact RxUnit.candidate_list p _ _ _ r hw

/-! ### What every step of parsing keeps -/

theorem RxUnit.candidate_keeps (p : Params) (ver cmd : Byte) (len : Half) (r : RxUnit) :
    (Memory.wf r.buf = true → Memory.wf (r.candidate p ver cmd len).unit.buf = true) ∧
    (r.candidate p ver cmd len).unit.cnt ≤ r.cnt ∧
    (r.cnt ≤ p.rxCap → Memory.below p.rxCap r.buf = true →
      Memory.below p.rxCap (r.candidate p ver cmd len).unit.buf = true) ∧
    (r.candidate p ver cmd len).unit.stat = (r.candidate p ver cmd len).outcome.status ∧
    ∀ e ∈ (r.candidate p ver cmd len).events, e.payload.length = e.len.toNat ∧ frameLen e.len ≤ p.rxCap := by
  unfold RxUnit.candidate
  split
  · exact ⟨id, by simp, fun _ h => h, rfl, by simp⟩
  · split
    · exact ⟨id, by simp, fun _ h => h, rfl, by simp⟩
    · split
      · unfold RxUnit.badSum
        cases p.csumPolicy with
        | hold => exact ⟨id, by simp, fun _ h => h, rfl, by simp⟩
        | drop1 =>
          exact ⟨fun h => RxUnit.dropFront_wf 1 r h, by simp, fun hc hb => RxUnit.dropFront_below _ 1 r hc hb, rfl, by simp⟩
      · refine ⟨fun h => RxUnit.dropFront_wf _ r h, by simp, fun hc hb => RxUnit.dropFront_below _ _ r hc hb, rfl, ?_⟩
        rename_i h1 _ _
        intro e he
        simp only [List.mem_singleton] at he
        subst he
        exact ⟨by simp, Nat.not_lt.mp h1⟩

theorem RxUnit.scan_keeps (p : Params) (r : RxUnit) :
    (Memory.wf r.buf = true → Memory.wf (r.scan p).unit.buf = true) ∧
    (r.scan p).unit.cnt ≤ r.cnt ∧
    (r.cnt ≤ p.rxCap → Memory.below p.rxCap r.buf = true → Memory.below p.rxCap (r.scan p).unit.buf = true) ∧
    (r.scan p).unit.stat = (r.scan p).outcome.status ∧
    ∀ e ∈ (r.scan p).events, e.payload.length = e.len.toNat ∧ frameLen e.len ≤ p.rxCap := by
  unfold RxUnit.scan
  split
  · exact ⟨id, by simp, fun _ h => h, rfl, by simp⟩
  · split
    · exact ⟨fun h => RxUnit.dropFront_wf 1 r h, by simp, fun hc hb => RxUnit.dropFront_below _ 1 r hc hb, rfl, by simp⟩
    · exact RxUnit.candidate_keeps p _ _ _ r

/-- `DROP` and `DISPATCH` each strictly reduce `RXCNT` (R105 (a)). -/
theorem RxUnit.scan_progress (p : Params) (r : RxUnit) (h : (r.scan p).outcome.continues = true) :
    (r.scan p).unit.cnt < r.cnt := by
  revert h
  unfold RxUnit.scan
  split
  · simp [ScanOutcome.continues]
  · rename_i h6
    simp only [Config.hdrLen] at h6
    split
    · intro _; simp; omega
    · unfold RxUnit.candidate
      split
      · simp [ScanOutcome.continues]
      · split
        · simp [ScanOutcome.continues]
        · split
          · simp [ScanOutcome.continues]
          · intro _; simp; omega

/-- The parse loop with enough fuel does not depend on how much (R107). -/
theorem RxUnit.parse_fuel (p : Params) (n : Nat) (r : RxUnit) (h : r.cnt ≤ n) : r.parse p n = r.parse p r.cnt := by
  suffices ∀ m n : Nat, ∀ r : RxUnit, r.cnt ≤ m → r.cnt ≤ n → r.parse p n = r.parse p m from
    this r.cnt n r (Nat.le_refl _) h
  intro m
  induction m with
  | zero =>
    intro n r hm _
    have hc : (r.scan p).outcome.continues = false := by
      by_contra hne
      have := RxUnit.scan_progress p r (by simpa using hne)
      omega
    cases n with
    | zero => rfl
    | succ n => simp [RxUnit.parse, hc]
  | succ m ih =>
    intro n r hm hn
    by_cases hc : (r.scan p).outcome.continues = true
    · have hlt := RxUnit.scan_progress p r hc
      cases n with
      | zero => omega
      | succ n =>
        have := ih n (r.scan p).unit (by omega) (by omega)
        simp [RxUnit.parse, hc, this]
    · cases n with
      | zero => simp [RxUnit.parse, hc]
      | succ n => simp [RxUnit.parse, hc]

/-- One unrolling of the parse loop of R106. -/
theorem RxUnit.parse_unroll (p : Params) (r : RxUnit) :
    r.parse p r.cnt =
      if (r.scan p).outcome.continues = true then
        { (r.scan p).unit.parse p (r.scan p).unit.cnt with
          events := (r.scan p).events ++ ((r.scan p).unit.parse p (r.scan p).unit.cnt).events }
      else r.scan p := by
  rw [← RxUnit.parse_fuel p (r.cnt + 1) r (by omega)]
  simp only [RxUnit.parse]
  have hle := (RxUnit.scan_keeps p r).2.1
  rw [RxUnit.parse_fuel p r.cnt (r.scan p).unit hle]

/-- The loop ends in an outcome that ends it: the fuel never cuts it off (R105 (a), R107). -/
theorem RxUnit.parse_ends (p : Params) (n : Nat) (r : RxUnit) (h : r.cnt ≤ n) :
    (r.parse p n).outcome.continues = false := by
  induction n generalizing r with
  | zero =>
    by_contra hne
    have := RxUnit.scan_progress p r (by simpa [RxUnit.parse] using hne)
    omega
  | succ n ih =>
    simp only [RxUnit.parse]
    split
    · rename_i hc
      have := RxUnit.scan_progress p r hc
      exact ih _ (by omega)
    · rename_i hc
      simpa using hc

theorem RxUnit.parse_keeps (p : Params) (n : Nat) (r : RxUnit) :
    (Memory.wf r.buf = true → Memory.wf (r.parse p n).unit.buf = true) ∧
    (r.parse p n).unit.cnt ≤ r.cnt ∧
    (r.cnt ≤ p.rxCap → Memory.below p.rxCap r.buf = true → Memory.below p.rxCap (r.parse p n).unit.buf = true) ∧
    (r.parse p n).unit.stat = (r.parse p n).outcome.status ∧
    ∀ e ∈ (r.parse p n).events, e.payload.length = e.len.toNat ∧ frameLen e.len ≤ p.rxCap := by
  induction n generalizing r with
  | zero => exact RxUnit.scan_keeps p r
  | succ n ih =>
    simp only [RxUnit.parse]
    split
    · obtain ⟨a1, a2, a3, a4, a5⟩ := RxUnit.scan_keeps p r
      obtain ⟨b1, b2, b3, b4, b5⟩ := ih (r.scan p).unit
      refine ⟨fun h => b1 (a1 h), by simpa using Nat.le_trans b2 a2, fun hc hb => b3 (by omega) (a3 hc hb), b4, ?_⟩
      intro e he
      rcases List.mem_append.mp he with h | h
      · exact a5 e h
      · exact b5 e h
    · exact RxUnit.scan_keeps p r

/-- Phase 1 of a pass: what it keeps, and how it can end (R106, R201, R204). -/
theorem RxUnit.drain_keeps (cap : Nat) (as : List ReadAnswer) (r : RxUnit) :
    (Memory.wf r.buf = true → Memory.wf (r.drain cap as).unit.buf = true) ∧
    (r.cnt ≤ cap → (r.drain cap as).unit.cnt ≤ cap) ∧
    (Memory.below cap r.buf = true → Memory.below cap (r.drain cap as).unit.buf = true) ∧
    (((r.drain cap as).error = none ∧ ((r.drain cap as).unit.stat = r.stat ∨ (r.drain cap as).unit.stat = .ok)) ∨
      ((r.drain cap as).error = some .transportReadError ∧ (r.drain cap as).unit.stat = .transportReadError) ∨
      ((r.drain cap as).error = some .malformedFrame ∧ (r.drain cap as).unit.stat = .malformedFrame ∧
        (r.drain cap as).unit.cnt = 0)) := by
  induction as generalizing r with
  | nil => exact ⟨id, id, id, .inl ⟨rfl, .inl rfl⟩⟩
  | cons a as ih =>
    cases a with
    | noData => exact ⟨id, id, id, .inl ⟨rfl, .inl rfl⟩⟩
    | error => exact ⟨id, id, id, .inr (.inl ⟨rfl, rfl⟩)⟩
    | byte b =>
      simp only [RxUnit.drain]
      rcases RxUnit.push_cases cap b r with ⟨hc, hs, hn, hb⟩ | ⟨hc, hs, hn, hb⟩
      · rw [hs]
        simp only [hb, hn, hs]
        exact ⟨id, fun _ => Nat.zero_le _, id, by simp⟩
      · rw [hs]
        obtain ⟨i1, i2, i3, i4⟩ := ih (r.push cap b)
        refine ⟨fun h => i1 (by rw [hb]; exact Memory.wf_write _ _ _ h), fun _ => i2 (by omega),
          fun h => i3 (by rw [hb]; exact Memory.below_write _ _ _ _ hc h), ?_⟩
        rw [hs] at i4
        rcases i4 with ⟨h1, h2⟩ | h | h
        · exact .inl ⟨h1, .inr (by simpa using h2)⟩
        · exact .inr (.inl h)
        · exact .inr (.inr h)

/-! ### The two entry points of R102 -/

theorem RxUnit.scan_short (p : Params) (r : RxUnit) (h : r.cnt < 6) :
    r.scan p = { unit := r.raise .ok, outcome := .waitHdr, events := [] } := by
  unfold RxUnit.scan
  rw [if_pos h]

theorem RxUnit.scan_unsynced (p : Params) (r : RxUnit) (h6 : 6 ≤ r.cnt)
    (h : Memory.read r.buf 0 ≠ 0x55 ∨ Memory.read r.buf 1 ≠ 0xAA) :
    r.scan p = { unit := (r.dropFront 1).raise .ok, outcome := .drop, events := [] } := by
  unfold RxUnit.scan
  simp only [Config.hdrLen, Config.sync1, Config.sync2]
  rw [if_neg (by omega), if_pos h]

theorem RxUnit.scan_synced (p : Params) (r : RxUnit) (len : Half) (h6 : 6 ≤ r.cnt)
    (h0 : Memory.read r.buf 0 = 0x55) (h1 : Memory.read r.buf 1 = 0xAA)
    (hl : len = be16 (Memory.read r.buf 4) (Memory.read r.buf 5)) :
    r.scan p = r.candidate p (Memory.read r.buf 2) (Memory.read r.buf 3) len := by
  unfold RxUnit.scan
  simp only [Config.hdrLen, Config.sync1, Config.sync2]
  rw [if_neg (by omega), if_neg (by simp [h0, h1]), hl]

/-! ### Recognising a frame (R85) -/

/-- The header the RX unit holds decodes exactly when six bytes are held and the first two are the sync sequence. -/
theorem RxUnit.decode_header (r : RxUnit) :
    decodeFrame r.header =
      if r.cnt < 6 then .error .truncated
      else if Memory.read r.buf 0 = 0x55 ∧ Memory.read r.buf 1 = 0xAA then
        .ok (.wireFrame (Memory.read r.buf 2) (Memory.read r.buf 3) (be16 (Memory.read r.buf 4) (Memory.read r.buf 5)), [])
      else .error .noSync := by
  unfold RxUnit.header
  simp only [Config.hdrLen]
  split
  · rfl
  · simp [Memory.readRange, decodeFrame]

/-- The RX unit holds this header exactly when a step of parsing meets this candidate. -/
theorem RxUnit.scan_of_header (p : Params) (ver cmd : Byte) (len : Half) (r : RxUnit)
    (h : r.header = frameHeader ver cmd len) : r.scan p = r.candidate p ver cmd len := by
  have hd : decodeFrame r.header = .ok (.wireFrame ver cmd len, []) := by
    rw [h]; simpa using decodeFrame_frameHeader ver cmd len []
  rw [RxUnit.decode_header] at hd
  unfold RxUnit.scan
  simp only [Config.hdrLen, Config.sync1, Config.sync2]
  split at hd
  · simp at hd
  · rename_i h6
    split at hd
    · rename_i hs
      simp only [Except.ok.injEq, Prod.mk.injEq, Instr.wireFrame.injEq, and_true] at hd
      rw [if_neg h6, if_neg (by simp [hs.1, hs.2]), hd.1, hd.2.1, hd.2.2]
    · simp at hd

end Sys2Proof.Machine
end

