-- ==== Sys2Proof/Laws/Tx.lean ====
section
/-! SUPPORT. The TX unit: what the loop of `TX.FRAME` sends, and that an assembled frame is one. -/
namespace Sys2Proof.Machine
open Sys2Proof

/-- Everything the write loop can do (41_tx_frame_assembler.md R131): it sends the whole string, or a proper prefix and
the write of the next byte was answered `Error`. -/
theorem send_cases (bs : List Byte) (as : List WriteAnswer) :
    ((send bs as).failed = false ∧ (send bs as).sent = bs) ∨
    ((send bs as).failed = true ∧ (send bs as).sent.length < bs.length ∧
      (send bs as).sent = bs.take (send bs as).sent.length) := by
  induction bs generalizing as with
  | nil => exact .inl ⟨rfl, rfl⟩
  | cons b bs ih =>
    cases as with
    | nil => exact .inl ⟨rfl, rfl⟩
    | cons a as =>
      cases a with
      | ok =>
        rcases ih as with ⟨h1, h2⟩ | ⟨h1, h2, h3⟩
        · exact .inl ⟨h1, by simp [send, h2]⟩
        · refine .inr ⟨h1, by simp [send, h2], ?_⟩
          simp only [send, List.length_cons, List.take_succ_cons, List.cons.injEq, true_and]
          exact h3
      | error => exact .inr ⟨rfl, by simp [send], rfl⟩

/-- If every answer is `Ok`, or none is left, the whole string goes out. -/
theorem send_all (bs : List Byte) (as : List WriteAnswer) (h : WriteAnswer.error ∉ as.take bs.length) :
    send bs as = { sent := bs, rest := as.drop bs.length, failed := false } := by
  induction bs generalizing as with
  | nil => rfl
  | cons b bs ih =>
    cases as with
    | nil => rfl
    | cons a as =>
      cases a with
      | ok =>
        have : WriteAnswer.error ∉ as.take bs.length := by simpa using h
        simp [send, ih as this]
      | error => simp at h

/-- If the first `Error` answers the write of byte `i`, exactly the `i` bytes before it go out. -/
theorem send_fails (bs : List Byte) (as : List WriteAnswer) (i : Nat) (hi : i < bs.length)
    (h : WriteAnswer.error ∉ as.take i) (he : as[i]? = some .error) :
    send bs as = { sent := bs.take i, rest := as.drop (i + 1), failed := true } := by
  induction i generalizing bs as with
  | zero =>
    cases as with
    | nil => simp at he
    | cons a as =>
      simp only [List.getElem?_cons_zero, Option.some.injEq] at he
      subst he
      cases bs with
      | nil => simp at hi
      | cons b bs => rfl
  | succ i ih =>
    cases as with
    | nil => simp at he
    | cons a as =>
      cases bs with
      | nil => simp at hi
      | cons b bs =>
        cases a with
        | error => simp at h
        | ok =>
          have := ih bs as (by simpa using hi) (by simpa using h) (by simpa using he)
          simp [send, this]

/-- An assembled frame is a frame (30_encoding.md R70 to R72). -/
theorem isFrame_frameBytes (ver cmd : Byte) (p : List Byte) (h : p.length ≤ 65535) :
    isFrame (frameBytes ver cmd p) = true := by
  have hb : (frameBytes ver cmd p).drop 6 = p ++ [sum8 (frameHeader ver cmd (BitVec.ofNat 16 p.length) ++ p)] := by
    simp [frameBytes, frameHeader]
  simp only [isFrame, Bool.and_eq_true, decide_eq_true_eq, frameBytes_length, hb, List.dropLast_concat]
  refine ⟨⟨by omega, by omega⟩, ?_⟩
  simp [frameBytes, frameHeader]

/-- `TXBUF[0..TXLEN-1]` after a transmission is the frame (R131). -/
theorem State.transmit_frame (f : List Byte) (s : State) (hw : Memory.wf s.tx.buf = true) :
    (s.transmit f).tx.frame = f := by
  simp only [State.transmit, State.respond, TxUnit.frame]
  exact Memory.readRange_writeRange _ _ _ hw

/-- What a transmission leaves outside the TX unit and the transport's record. -/
theorem State.transmit_frame_other (f : List Byte) (s : State) :
    (s.transmit f).params = s.params ∧ (s.transmit f).rx = s.rx ∧ (s.transmit f).dp = s.dp ∧
    (s.transmit f).draws = s.draws ∧ (s.transmit f).env.port = s.env.port ∧ (s.transmit f).env.rxIn = s.env.rxIn ∧
    (s.transmit f).env.events = s.env.events ∧ (s.transmit f).env.txlog = s.env.txlog ++ (send f s.env.txAns).sent ∧
    (s.transmit f).env.txAns = (send f s.env.txAns).rest := by
  simp [State.transmit]

end Sys2Proof.Machine
end

