-- ==== Sys2Proof/Laws/Step.lean ====
section
/-! SUPPORT. What a step is: the dispatch of each instruction once, and that handing a request to the wire pattern it meets
changes nothing (30_encoding.md R85). -/
namespace Sys2Proof.Machine
open Sys2Proof

theorem exec_recordInstr (ty : DpType) (id : Byte) (len : Half) (rest : List Byte) (s : State) :
    exec (recordInstr ty id len rest) s = .next (s.dpRecord id ty len rest) := by
  cases ty <;> rfl

/-- Running the recognised pattern is running the requested operation (R102, R173). -/
theorem exec_recognise (i : Instr) (s : State) : exec (recognise i s) s = exec i s := by
  cases i with
  | rxScan =>
    simp only [recognise, decodedOr]
    split
    · rename_i x hx
      obtain ⟨ver, cmd, len, hi, hb⟩ := frameHeader_of_decodeFrame _ x.2 x.1 hx
      have hnil : x.2 = [] := by
        have h1 := congrArg List.length hb
        have h2 : s.rx.header.length ≤ 6 := by
          unfold RxUnit.header; split <;> simp
        simp at h1
        exact List.length_eq_zero_iff.mp (by omega)
      rw [hnil, List.append_nil] at hb
      rw [hi]
      simp only [exec, execWireFrame, execRxScan, hb, if_true]
      rw [RxUnit.scan_of_header s.params ver cmd len s.rx hb]
    · rfl
  | dpDec bs =>
    simp only [recognise, decodedOr]
    split
    · rename_i x hx
      obtain ⟨id, ty, len, r, hi, hb⟩ := recordBytes_of_decodeRecord _ x.2 x.1 hx
      rw [hi, exec_recordInstr, hb]
      simp [exec, execDpDec]
    · rfl
  | _ => rfl

/-- Everything a step can do. -/
theorem step_cases (s : State) :
    (s.env.port = [] ∧ step s = .next s) ∨
    (∃ i rest, decodeRequest s.env.port = .ok (i, rest) ∧ step s = exec i (s.take rest)) ∨
    (∃ op bs, s.env.port = op :: bs ∧ Op.ofCode op = none ∧ step s = .refused (.reservedOp op)) ∨
    (∃ op bs, s.env.port = op :: bs ∧ decodeRequest s.env.port = .error .truncated ∧
      step s = .fault .truncatedRequest) := by
  cases hp : s.env.port with
  | nil => exact .inl ⟨rfl, by simp [step, hp]⟩
  | cons op bs =>
    refine .inr ?_
    cases ho : Op.ofCode op with
    | none => exact .inr (.inl ⟨op, bs, rfl, ho, by simp [step, hp, decodeRequest, ho]⟩)
    | some o =>
      cases hd : decodeOperands o bs with
      | none => exact .inr (.inr ⟨op, bs, rfl, by simp [decodeRequest, ho, hd], by simp [step, hp, decodeRequest, ho, hd]⟩)
      | some x =>
        refine .inl ⟨x.1, x.2, by simp [decodeRequest, ho, hd], ?_⟩
        simp only [step, hp, decodeRequest, ho, hd]
        exact exec_recognise _ _

end Sys2Proof.Machine
end

