-- ==== Sys2Proof/Laws/Exec.lean ====
section
/-! SUPPORT. Everything an instruction of each unit can do, once: which fields it writes, that it keeps its unit's part of
the invariant, and that the status register takes the status returned. -/
namespace Sys2Proof.Machine
open Sys2Proof

/-- A wire record is one of the six patterns. -/
theorem exists_recordInstr (i : Instr) (h : i.format = .dpRecord) :
    ∃ ty id len rest, i = recordInstr ty id len rest := by
  cases i <;> simp [Instr.format] at h
  case wireDpRaw id len rest => exact ⟨.raw, id, len, rest, rfl⟩
  case wireDpBool id len rest => exact ⟨.bool, id, len, rest, rfl⟩
  case wireDpValue id len rest => exact ⟨.value, id, len, rest, rfl⟩
  case wireDpString id len rest => exact ⟨.string, id, len, rest, rfl⟩
  case wireDpEnum id len rest => exact ⟨.enum, id, len, rest, rfl⟩
  case wireDpBitmap id len rest => exact ⟨.bitmap, id, len, rest, rfl⟩

theorem encode_recordInstr (ty : DpType) (id : Byte) (len : Half) (rest : List Byte) :
    encode (recordInstr ty id len rest) = recordBytes id ty len rest := by
  cases ty <;> rfl

theorem RxUnit.drain_rest (cap : Nat) (as : List ReadAnswer) (r : RxUnit) : (r.drain cap as).rest <:+ as := by
  induction as generalizing r with
  | nil => exact List.suffix_refl _
  | cons a as ih =>
    cases a with
    | noData => exact List.suffix_cons _ _
    | error => exact List.suffix_cons _ _
    | byte b =>
      simp only [RxUnit.drain]
      split
      · exact (ih _).trans (List.suffix_cons _ _)
      · exact List.suffix_cons _ _

theorem ScanOutcome.status_mem (o : ScanOutcome) :
    o.status ∈ [Status.ok, .transportReadError, .checksumError, .malformedFrame] := by
  cases o <;> decide

/-- What an RX instruction does when it does anything. -/
structure RxEffect (s t : State) (res : Response) : Prop where
  frame : t = { s with
    rx := t.rx
    env := { s.env with
      rxIn := t.env.rxIn, events := t.env.events, responses := s.env.responses ++ [res] } }
  rxIn : t.env.rxIn <:+ s.env.rxIn
  events : ∃ es, t.env.events = s.env.events ++ es ∧ ∀ e ∈ es, FrameEvent.ok s.params e
  stat : t.rx.stat = res.returned
  ok : RxUnit.ok s.params s.rx → RxUnit.ok s.params t.rx

theorem RxEffect.of_scanned (s : State) (q : ScanResult)
    (h : (Memory.wf s.rx.buf = true → Memory.wf q.unit.buf = true) ∧ q.unit.cnt ≤ s.rx.cnt ∧
      (s.rx.cnt ≤ s.params.rxCap → Memory.below s.params.rxCap s.rx.buf = true →
        Memory.below s.params.rxCap q.unit.buf = true) ∧
      q.unit.stat = q.outcome.status ∧
      ∀ e ∈ q.events, e.payload.length = e.len.toNat ∧ frameLen e.len ≤ s.params.rxCap) :
    RxEffect s (s.scanned q) (.scan q.outcome q.outcome.status) where
  frame := rfl
  rxIn := List.suffix_refl _
  events := ⟨q.events, rfl, h.2.2.2.2⟩
  stat := h.2.2.2.1
  ok := fun ⟨h1, h2, h3, _⟩ => by
    refine ⟨h.1 h1, h.2.2.1 h3 h2, Nat.le_trans h.2.1 h3, ?_⟩
    show q.unit.stat ∈ _
    rw [h.2.2.2.1]
    exact ScanOutcome.status_mem _

/-- Everything an RX instruction can do (R20, R100 to R106). -/
theorem exec_rx (i : Instr) (s t : State) (hu : unitOf i = .rx) (h : exec i s = .next t) :
    t = s ∨ ∃ res, RxEffect s t res := by
  cases i <;> simp [unitOf] at hu
  case rxReset =>
    simp only [exec, execRxReset, Host.Outcome.next.injEq] at h
    subst h
    exact .inr ⟨_, rfl, List.suffix_refl _, ⟨[], (List.append_nil _).symm, by simp⟩, rfl,
      fun ⟨h1, h2, _, _⟩ => ⟨h1, h2, Nat.zero_le _, by simp⟩⟩
  case rxPush b =>
    simp only [exec, execRxPush, Host.Outcome.next.injEq] at h
    subst h
    refine .inr ⟨.status (s.rx.push s.params.rxCap b).stat, rfl, List.suffix_refl _,
      ⟨[], (List.append_nil _).symm, by simp⟩, rfl, ?_⟩
    rintro ⟨h1, h2, h3, h4⟩
    show RxUnit.ok s.params (s.rx.push s.params.rxCap b)
    rcases RxUnit.push_cases s.params.rxCap b s.rx with ⟨_, hs, hn, hb⟩ | ⟨hc, hs, hn, hb⟩
    · exact ⟨by rw [hb]; exact h1, by rw [hb]; exact h2, by omega, by simp [hs]⟩
    · exact ⟨by rw [hb]; exact Memory.wf_write _ _ _ h1, by rw [hb]; exact Memory.below_write _ _ _ _ hc h2,
        by omega, by simp [hs]⟩
  case rxScan =>
    simp only [exec, execRxScan, Host.Outcome.next.injEq] at h
    subst h
    exact .inr ⟨_, RxEffect.of_scanned s _ (RxUnit.scan_keeps _ _)⟩
  case rxPass =>
    obtain ⟨d1, d2, d3, d4⟩ := RxUnit.drain_keeps s.params.rxCap s.env.rxIn s.rx
    have dr := RxUnit.drain_rest s.params.rxCap s.env.rxIn s.rx
    simp only [exec, execRxPass] at h
    split at h
    · rename_i st hst
      simp only [Host.Outcome.next.injEq] at h
      subst h
      refine .inr ⟨.status st, rfl, dr, ⟨[], (List.append_nil _).symm, by simp⟩, ?_, ?_⟩
      · show (s.rx.drain s.params.rxCap s.env.rxIn).unit.stat = st
        rcases d4 with ⟨h1, _⟩ | ⟨h1, h2⟩ | ⟨h1, h2, _⟩
        · simp [h1] at hst
        · rw [h2]; rw [h1] at hst; simpa using hst
        · rw [h2]; rw [h1] at hst; simpa using hst
      · rintro ⟨h1, h2, h3, h4⟩
        refine ⟨d1 h1, d3 h2, d2 h3, ?_⟩
        show (s.rx.drain s.params.rxCap s.env.rxIn).unit.stat ∈ _
        rcases d4 with ⟨_, h | h⟩ | ⟨_, h⟩ | ⟨_, h, _⟩
        · rw [h]; exact h4
        all_goals simp [h]
    · simp only [Host.Outcome.next.injEq] at h
      subst h
      obtain ⟨p1, p2, p3, p4, p5⟩ := RxUnit.parse_keeps s.params
        (s.rx.drain s.params.rxCap s.env.rxIn).unit.cnt (s.rx.drain s.params.rxCap s.env.rxIn).unit
      refine .inr ⟨.status _, rfl, dr, ⟨_, rfl, p5⟩, p4, ?_⟩
      rintro ⟨h1, h2, h3, h4⟩
      refine ⟨p1 (d1 h1), p3 (d2 h3) (d3 h2), Nat.le_trans p2 (d2 h3), ?_⟩
      simp only [State.respond_rx, State.emit_rx]
      rw [p4]
      exact ScanOutcome.status_mem _
  case wireFrame ver cmd len =>
    simp only [exec, execWireFrame] at h
    split at h
    · simp only [Host.Outcome.next.injEq] at h
      subst h
      exact .inr ⟨_, RxEffect.of_scanned s _ (RxUnit.candidate_keeps _ _ _ _ _)⟩
    · simp only [Host.Outcome.next.injEq] at h
      exact .inl h.symm

/-- What a TX instruction does. -/
structure TxEffect (s t : State) (res : Response) : Prop where
  frame : t = { s with
    tx := t.tx
    env := { s.env with
      txAns := t.env.txAns, txlog := t.env.txlog, responses := s.env.responses ++ [res] } }
  txAns : t.env.txAns <:+ s.env.txAns
  txlog : s.env.txlog <+: t.env.txlog
  stat : t.tx.stat = res.returned
  ok : Params.ok s.params → TxUnit.ok s.params s.tx → TxUnit.ok s.params t.tx

theorem send_rest (bs : List Byte) (as : List WriteAnswer) : (send bs as).rest <:+ as := by
  induction bs generalizing as with
  | nil => exact List.suffix_refl _
  | cons b bs ih =>
    cases as with
    | nil => exact List.suffix_refl _
    | cons a as =>
      cases a with
      | ok => exact (ih as).trans (List.suffix_cons _ _)
      | error => exact List.suffix_cons _ _

/-- Everything a TX instruction can do (R20, R131). -/
theorem exec_tx (i : Instr) (s t : State) (hu : unitOf i = .tx) (h : exec i s = .next t) :
    ∃ res, TxEffect s t res := by
  cases i <;> simp [unitOf] at hu
  case txFrame ver cmd p =>
    simp only [exec, execTxFrame] at h
    split at h
    · simp only [Host.Outcome.next.injEq] at h
      subst h
      exact ⟨_, rfl, List.suffix_refl _, List.prefix_refl _, rfl,
        fun _ ⟨h1, h2, _, _⟩ => ⟨h1, h2, Nat.zero_le _, .inl rfl, .inr (.inr ⟨rfl, rfl, rfl⟩)⟩⟩
    · rename_i hfit
      simp only [Host.Outcome.next.injEq] at h
      subst h
      refine ⟨_, rfl, send_rest _ _, List.prefix_append _ _, rfl, ?_⟩
      rintro ⟨_, _, _, hp⟩ ⟨h1, h2, _, _⟩
      have hlen := frameBytes_length ver cmd p
      refine ⟨Memory.wf_writeRange _ _ _ h1, Memory.below_writeRange _ _ _ _ (by omega) h2, ?_, ?_, ?_⟩
      · show (frameBytes ver cmd p).length ≤ _
        omega
      · refine .inr ?_
        rw [State.transmit_frame _ _ h1]
        exact isFrame_frameBytes ver cmd p (by omega)
      · rcases send_cases (frameBytes ver cmd p) s.env.txAns with ⟨f1, f2⟩ | ⟨f1, f2, _⟩
        · exact .inl ⟨by simp [State.transmit, f1], by simp [State.transmit, f2]⟩
        · exact .inr (.inl ⟨by simp [State.transmit, f1], by simpa [State.transmit] using f2⟩)

/-- What a DP instruction does. -/
structure DpEffect (s t : State) (res : Response) : Prop where
  frame : t = { s with
    dp := t.dp
    env := { s.env with responses := s.env.responses ++ [res] }
    draws := t.draws }
  stat : t.dp.stat = res.returned
  ok : DpUnit.ok s.dp → DpUnit.ok t.dp

theorem DpUnit.unspecified_ok (n : Nat) (st : Status) (h : st ∈ [Status.ok, .malformedDP, .dpInvalid]) :
    DpUnit.ok (DpUnit.unspecified n st) :=
  ⟨DpVal.fit_fits _, h, fun hv => by simp at hv⟩

theorem DpEffect.of_dpFail (s : State) : DpEffect s s.dpFail (.status .malformedDP) :=
  ⟨rfl, rfl, fun _ => DpUnit.unspecified_ok _ _ (by simp)⟩

theorem DpEffect.of_dpLoad (id : Byte) (ty : DpType) (len : Half) (val : DpVal) (r : Response) (s : State)
    (hr : r.returned = .ok) (ht : val.type = ty) (hf : val.fits = true) (hl : val.hasLen len = true)
    (h : len.toNat ≤ 64) : DpEffect s (s.dpLoad id ty len val r) r :=
  ⟨rfl, hr.symm, fun _ => ⟨hf, by simp, fun _ => ⟨ht, hf, hl, h⟩⟩⟩

theorem DpEffect.of_dpRecord (id : Byte) (ty : DpType) (len : Half) (rest : List Byte) (s : State) :
    ∃ res, DpEffect s (s.dpRecord id ty len rest) res := by
  rcases State.dpRecord_cases id ty len rest s with ⟨_, h⟩ | ⟨h1, h2, h⟩
  · rw [h]; exact ⟨_, DpEffect.of_dpFail s⟩
  · rw [h]
    obtain ⟨f1, f2⟩ := readPayload_fits ty len (rest.take len.toNat) (by simp [h2]) h1
    exact ⟨_, DpEffect.of_dpLoad id ty len _ _ s rfl (readPayload_type _ _ _) f1 f2 h1⟩

/-- Everything a DP instruction can do (R20, R150 to R173). -/
theorem exec_dp (i : Instr) (s t : State) (hu : unitOf i = .dp) (h : exec i s = .next t) :
    ∃ res, DpEffect s t res := by
  by_cases hr : i.format = .dpRecord
  · obtain ⟨ty, id, len, rest, rfl⟩ := exists_recordInstr i hr
    rw [exec_recordInstr, Host.Outcome.next.injEq] at h
    subst h
    exact DpEffect.of_dpRecord id ty len rest s
  · cases i <;> simp [unitOf] at hu <;> simp [Instr.format] at hr
    case dpSetRaw id b =>
      simp only [exec, execDpSetRaw, Host.Outcome.next.injEq] at h
      subst h
      have := keepRaw_length b
      exact ⟨_, DpEffect.of_dpLoad _ _ _ _ _ s rfl rfl (by simp [DpVal.fits]; omega)
        (by simp [DpVal.hasLen]; omega) (by simp; omega)⟩
    case dpSetBool id x =>
      simp only [exec, execDpSetBool, Host.Outcome.next.injEq] at h
      subst h
      exact ⟨_, DpEffect.of_dpLoad _ _ _ _ _ s rfl rfl rfl rfl (by decide)⟩
    case dpSetValue id v =>
      simp only [exec, execDpSetValue, Host.Outcome.next.injEq] at h
      subst h
      exact ⟨_, DpEffect.of_dpLoad _ _ _ _ _ s rfl rfl rfl rfl (by decide)⟩
    case dpSetString id b =>
      simp only [exec, execDpSetString, Host.Outcome.next.injEq] at h
      subst h
      have := keepString_length_le b
      refine ⟨_, DpEffect.of_dpLoad _ _ _ _ _ s rfl rfl ?_ rfl (by simp; omega)⟩
      simp only [DpVal.fits, Bool.and_eq_true, decide_eq_true_eq]
      exact ⟨this, keepString_no_nul b⟩
    case dpSetEnum id e =>
      simp only [exec, execDpSetEnum, Host.Outcome.next.injEq] at h
      subst h
      exact ⟨_, DpEffect.of_dpLoad _ _ _ _ _ s rfl rfl rfl rfl (by decide)⟩
    case dpSetBitmap id b =>
      simp only [exec, execDpSetBitmap, Host.Outcome.next.injEq] at h
      subst h
      have := keepBitmap_length b
      exact ⟨_, DpEffect.of_dpLoad _ _ _ _ _ s rfl rfl (by simp [DpVal.fits]; omega)
        (by simp [DpVal.hasLen]; omega) (by simp; omega)⟩
    case dpEnc =>
      simp only [exec, execDpEnc] at h
      split at h
      · simp only [Host.Outcome.next.injEq] at h
        subst h
        exact ⟨_, rfl, rfl, fun ⟨h1, _, h3⟩ => ⟨h1, by simp, h3⟩⟩
      · simp only [Host.Outcome.next.injEq] at h
        subst h
        exact ⟨_, rfl, rfl, fun ⟨h1, _, h3⟩ => ⟨h1, by simp, h3⟩⟩
    case dpDec bs =>
      simp only [exec, execDpDec, Host.Outcome.next.injEq] at h
      subst h
      rcases State.dpDecode_cases bs s with h | ⟨id, ty, len, r, hb, h1, h2, _⟩
      · rw [h]; exact ⟨_, DpEffect.of_dpFail s⟩
      · rw [hb, State.dpDecode_recordBytes]
        exact DpEffect.of_dpRecord id ty len r s

end Sys2Proof.Machine
end

