-- ==== Sys2Proof/Laws/Frame.lean ====
section
/-! SUPPORT. Assembled frames as the parser meets them (41_tx_frame_assembler.md R130, 40_rx_frame_parser.md R102), and
what feeding a byte string to the RX unit leaves. -/
namespace Sys2Proof.Machine
open Sys2Proof

theorem frameBytes_append (ver cmd : Byte) (p more : List Byte) :
    frameBytes ver cmd p ++ more =
      0x55 :: 0xAA :: ver :: cmd :: hi8 (BitVec.ofNat 16 p.length) :: lo8 (BitVec.ofNat 16 p.length) ::
        (p ++ (sum8 (frameHeader ver cmd (BitVec.ofNat 16 p.length) ++ p) :: more)) := by
  simp [frameBytes, frameHeader]

theorem frameBytes_take (ver cmd : Byte) (p : List Byte) :
    (frameBytes ver cmd p).take (6 + p.length) = frameHeader ver cmd (BitVec.ofNat 16 p.length) ++ p := by
  simp only [frameBytes]
  rw [List.take_append_of_le_length (by simp)]
  exact List.take_of_length_le (by simp)

theorem frameBytes_checksum (ver cmd : Byte) (p : List Byte) :
    (frameBytes ver cmd p).getD (6 + p.length) 0 =
      sum8 (frameHeader ver cmd (BitVec.ofNat 16 p.length) ++ p) := by
  simp only [frameBytes]
  rw [List.getD_append_right _ _ _ _ (by simp)]
  simp

/-- A buffer that starts with an assembled frame that fits it is dispatched whole, and the rest is left (R102, R109). -/
theorem listScan_frame (P : Params) (ver cmd : Byte) (p more : List Byte) (h : p.length ≤ 65535)
    (hc : 7 + p.length ≤ P.rxCap) :
    listScan P (frameBytes ver cmd p ++ more) =
      { outcome := .dispatch, left := more
        events := [{ ver := ver, cmd := cmd, len := BitVec.ofNat 16 p.length, payload := p }] } := by
  have hl : (BitVec.ofNat 16 p.length).toNat = p.length := by simp; omega
  have ht : (frameBytes ver cmd p ++ more).take (6 + p.length) =
      frameHeader ver cmd (BitVec.ofNat 16 p.length) ++ p := by
    rw [List.take_append_of_le_length (by simp), frameBytes_take]
  have hg : (frameBytes ver cmd p ++ more).getD (6 + p.length) 0 =
      sum8 (frameHeader ver cmd (BitVec.ofNat 16 p.length) ++ p) := by
    rw [List.getD_append _ _ _ _ (by simp), frameBytes_checksum]
  have hd6 : ((frameBytes ver cmd p ++ more).drop 6).take p.length = p := by
    rw [frameBytes_append]; simp
  have hd7 : (frameBytes ver cmd p ++ more).drop (7 + p.length) = more := by
    rw [List.drop_append_of_le_length (by simp), List.drop_of_length_le (by simp)]; rfl
  have hgd : ∀ k, (frameBytes ver cmd p ++ more).getD k 0 =
      (0x55 :: 0xAA :: ver :: cmd :: hi8 (BitVec.ofNat 16 p.length) :: lo8 (BitVec.ofNat 16 p.length) ::
        (p ++ (sum8 (frameHeader ver cmd (BitVec.ofNat 16 p.length) ++ p) :: more))).getD k 0 := by
    intro k; rw [frameBytes_append]
  unfold listScan
  rw [if_neg (by simp; omega), if_neg (by rw [hgd, hgd]; simp), hgd 2, hgd 3, hgd 4, hgd 5]
  simp only [List.getD_cons_succ, List.getD_cons_zero, be16_hi8_lo8]
  unfold listCandidate
  rw [hl, if_neg (by omega), if_neg (by simp), ht, hg, hd6, hd7]
  simp

/-- Phase 1 of a pass on bytes that fit (R106): all of them are held, in order. -/
theorem RxUnit.drain_bytes (cap : Nat) (bs : List Byte) (r : RxUnit) (hw : Memory.wf r.buf = true)
    (h : r.cnt + bs.length ≤ cap) :
    (r.drain cap (bs.map ReadAnswer.byte)).error = none ∧ (r.drain cap (bs.map ReadAnswer.byte)).rest = [] ∧
    (r.drain cap (bs.map ReadAnswer.byte)).unit.held = r.held ++ bs ∧
    Memory.wf (r.drain cap (bs.map ReadAnswer.byte)).unit.buf = true := by
  induction bs generalizing r with
  | nil => simp [RxUnit.drain, hw]
  | cons b bs ih =>
    simp only [List.length_cons] at h
    have hp := RxUnit.push_room cap b r (by omega)
    have hh := RxUnit.held_push cap b r (by omega) hw
    have hs : (r.push cap b).stat = .ok := by rw [hp]
    simp only [List.map_cons, RxUnit.drain, hs]
    obtain ⟨a1, a2, a3, a4⟩ := ih (r.push cap b) (by rw [hp]; exact Memory.wf_write _ _ _ hw)
      (by rw [hp]; simp only; omega)
    exact ⟨a1, a2, by rw [a3, hh]; simp, a4⟩

/-- `RX.FEED` of bytes that fit (30_encoding.md R84): all of them are held, in order, and nothing is emitted. -/
theorem rxFeed_held (bs : List Byte) (s : State) (hw : Memory.wf s.rx.buf = true)
    (h : s.rx.cnt + bs.length ≤ s.params.rxCap) :
    (rxFeed bs s).rx.held = s.rx.held ++ bs ∧ Memory.wf (rxFeed bs s).rx.buf = true ∧
    (rxFeed bs s).params = s.params ∧ (rxFeed bs s).env.events = s.env.events := by
  induction bs generalizing s with
  | nil => simp [rxFeed, hw]
  | cons b bs ih =>
    simp only [List.length_cons] at h
    have hp := RxUnit.push_room s.params.rxCap b s.rx (by omega)
    have hh := RxUnit.held_push s.params.rxCap b s.rx (by omega) hw
    have ha : (after (.rxPush b) s).rx = s.rx.push s.params.rxCap b := rfl
    have hs : (after (.rxPush b) s).rx.stat = .ok := by rw [ha, hp]
    obtain ⟨i1, i2, i3, i4⟩ := ih (after (.rxPush b) s) (by rw [ha, hp]; exact Memory.wf_write _ _ _ hw)
      (by rw [ha, hp]; show s.rx.cnt + 1 + bs.length ≤ s.params.rxCap; omega)
    simp only [rxFeed, if_pos hs]
    exact ⟨by rw [i1, ha, hh]; simp, i2, i3, i4⟩

theorem after_rxScan (s : State) : after .rxScan s = s.scanned (s.rx.scan s.params) := rfl

end Sys2Proof.Machine
end

