-- ==== Sys2Proof/Laws/PerInstr.lean ====
section
/-! SUPPORT. Statements made once per instruction. `Lead`: which bytes an encoding starts with (30_encoding.md R80 for a
request, R70 for a frame, R76 and R77 for a record) and how long it is. -/
namespace Sys2Proof.Laws.Lead
open Sys2Proof

/-- The bytes a decoder selects the instruction by, and the length of the encoding. -/
def Statement (i : Instr) : Prop :=
  match i with
  | .reset => encode i = [0x00]
  | .rxReset => encode i = [0x10]
  | .rxPush b => encode i = [0x11, b]
  | .rxScan => encode i = [0x12]
  | .rxPass => encode i = [0x13]
  | .txFrame ver cmd p =>
    (encode i).take 3 = [0x20, ver, cmd] ∧ (encode i).length = 4 + p.length / 255 + p.length
  | .dpSetRaw id b => (encode i).take 2 = [0x30, id] ∧ (encode i).length = 3 + b.length / 255 + b.length
  | .dpSetBool id t => encode i = [0x31, id, if t then 1 else 0]
  | .dpSetValue id v => (encode i).take 2 = [0x32, id] ∧ (encode i).drop 2 = be32 v
  | .dpSetString id b => (encode i).take 2 = [0x33, id] ∧ (encode i).length = 3 + b.length / 255 + b.length
  | .dpSetEnum id e => encode i = [0x34, id, e]
  | .dpSetBitmap id b => (encode i).take 2 = [0x35, id] ∧ (encode i).length = 3 + b.length / 255 + b.length
  | .dpEnc => encode i = [0x38]
  | .dpDec b => (encode i).take 1 = [0x39] ∧ (encode i).length = 2 + b.length / 255 + b.length
  | .wireFrame ver cmd len => encode i = [0x55, 0xAA, ver, cmd, hi8 len, lo8 len]
  | .wireDpRaw id len rest => encode i = [id, 0, hi8 len, lo8 len] ++ rest
  | .wireDpBool id len rest => encode i = [id, 1, hi8 len, lo8 len] ++ rest
  | .wireDpValue id len rest => encode i = [id, 2, hi8 len, lo8 len] ++ rest
  | .wireDpString id len rest => encode i = [id, 3, hi8 len, lo8 len] ++ rest
  | .wireDpEnum id len rest => encode i = [id, 4, hi8 len, lo8 len] ++ rest
  | .wireDpBitmap id len rest => encode i = [id, 5, hi8 len, lo8 len] ++ rest

theorem reset : Statement .reset := rfl
theorem rxReset : Statement .rxReset := rfl
theorem rxPush (b : Byte) : Statement (.rxPush b) := rfl
theorem rxScan : Statement .rxScan := rfl
theorem rxPass : Statement .rxPass := rfl
theorem txFrame (ver cmd : Byte) (p : List Byte) : Statement (.txFrame ver cmd p) :=
  ⟨rfl, by simp [encode, encodeString_length]; omega⟩
theorem dpSetRaw (id : Byte) (b : List Byte) : Statement (.dpSetRaw id b) :=
  ⟨rfl, by simp [encode, encodeString_length]; omega⟩
theorem dpSetBool (id : Byte) (t : Bool) : Statement (.dpSetBool id t) := rfl
theorem dpSetValue (id : Byte) (v : Word) : Statement (.dpSetValue id v) := ⟨rfl, rfl⟩
theorem dpSetString (id : Byte) (b : List Byte) : Statement (.dpSetString id b) :=
  ⟨rfl, by simp [encode, encodeString_length]; omega⟩
theorem dpSetEnum (id e : Byte) : Statement (.dpSetEnum id e) := rfl
theorem dpSetBitmap (id : Byte) (b : List Byte) : Statement (.dpSetBitmap id b) :=
  ⟨rfl, by simp [encode, encodeString_length]; omega⟩
theorem dpEnc : Statement .dpEnc := rfl
theorem dpDec (b : List Byte) : Statement (.dpDec b) :=
  ⟨rfl, by simp [encode, encodeString_length]; omega⟩
theorem wireFrame (ver cmd : Byte) (len : Half) : Statement (.wireFrame ver cmd len) := rfl
theorem wireDpRaw (id : Byte) (len : Half) (rest : List Byte) : Statement (.wireDpRaw id len rest) := rfl
theorem wireDpBool (id : Byte) (len : Half) (rest : List Byte) : Statement (.wireDpBool id len rest) := rfl
theorem wireDpValue (id : Byte) (len : Half) (rest : List Byte) : Statement (.wireDpValue id len rest) := rfl
theorem wireDpString (id : Byte) (len : Half) (rest : List Byte) : Statement (.wireDpString id len rest) := rfl
theorem wireDpEnum (id : Byte) (len : Half) (rest : List Byte) : Statement (.wireDpEnum id len rest) := rfl
theorem wireDpBitmap (id : Byte) (len : Half) (rest : List Byte) : Statement (.wireDpBitmap id len rest) := rfl

end Sys2Proof.Laws.Lead
end

