-- ==== Sys2Proof/Machine/Trace.lean ====
section
/-! DEFINITION. The trace syntax of 30_encoding.md R83, written out: an operation and its operands in the order of R80,
and the expected result after the arrow. It has no behaviour. A string operand takes the bracketed form. -/
namespace Sys2Proof.Machine
open Sys2Proof

def hexDigit (n : Nat) : Char := ['0', '1', '2', '3', '4', '5', '6', '7', '8', '9', 'A', 'B', 'C', 'D', 'E', 'F'].getD n '0'

/-- Two hexadecimal digits. -/
def hexByte (b : Byte) : List Char := [hexDigit (b.toNat / 16), hexDigit (b.toNat % 16)]

/-- `0x55`. -/
def traceByte (b : Byte) : List Char := '0' :: 'x' :: hexByte b

/-- `[55 AA 00]`. -/
def traceBytes (bs : List Byte) : List Char := '[' :: (List.intercalate [' '] (bs.map hexByte) ++ [']'])

/-- An `i32` in decimal. -/
def traceInt (v : Word) : List Char := (toString v.toInt).toList

def traceBool (t : Bool) : List Char := if t then "true".toList else "false".toList

/-- One request; the wire patterns are no requests and have no trace line. -/
def Instr.trace : Instr → Option (List Char)
  | .reset => some "RESET".toList
  | .rxReset => some "RX.RESET".toList
  | .rxPush b => some ("RX.PUSH ".toList ++ traceByte b)
  | .rxScan => some "RX.SCAN".toList
  | .rxPass => some "RX.PASS".toList
  | .txFrame ver cmd p =>
    some ("TX.FRAME ".toList ++ traceByte ver ++ [' '] ++ traceByte cmd ++ [' '] ++ traceBytes p)
  | .dpSetRaw id b => some ("DP.SET_RAW ".toList ++ traceByte id ++ [' '] ++ traceBytes b)
  | .dpSetBool id t => some ("DP.SET_BOOL ".toList ++ traceByte id ++ [' '] ++ traceBool t)
  | .dpSetValue id v => some ("DP.SET_VALUE ".toList ++ traceByte id ++ [' '] ++ traceInt v)
  | .dpSetString id b => some ("DP.SET_STRING ".toList ++ traceByte id ++ [' '] ++ traceBytes b)
  | .dpSetEnum id e => some ("DP.SET_ENUM ".toList ++ traceByte id ++ [' '] ++ traceByte e)
  | .dpSetBitmap id b => some ("DP.SET_BITMAP ".toList ++ traceByte id ++ [' '] ++ traceBytes b)
  | .dpEnc => some "DP.ENC".toList
  | .dpDec b => some ("DP.DEC ".toList ++ traceBytes b)
  | .wireFrame _ _ _ => none
  | .wireDpRaw _ _ _ => none
  | .wireDpBool _ _ _ => none
  | .wireDpValue _ _ _ => none
  | .wireDpString _ _ _ => none
  | .wireDpEnum _ _ _ => none
  | .wireDpBitmap _ _ _ => none

/-- The status names of 60_exceptions.md R200. -/
def Status.name : Status → List Char
  | .ok => "OK".toList
  | .transportReadError => "TransportReadError".toList
  | .transportWriteError => "TransportWriteError".toList
  | .checksumError => "ChecksumError".toList
  | .malformedFrame => "MalformedFrame".toList
  | .malformedDP => "MalformedDP".toList
  | .txTooLong => "TxTooLong".toList
  | .dpInvalid => "DpInvalid".toList

/-- The outcome names of 40_rx_frame_parser.md R103. -/
def ScanOutcome.name : ScanOutcome → List Char
  | .waitHdr => "WAIT_HDR".toList
  | .drop => "DROP".toList
  | .tooLong => "TOO_LONG".toList
  | .waitBody => "WAIT_BODY".toList
  | .badSum => "BADSUM".toList
  | .dispatch => "DISPATCH".toList

/-- What may stand after `->`: the status, for `RX.SCAN` the outcome too, for `DP.ENC` the byte string. -/
def Response.trace : Response → List Char
  | .status st => st.name
  | .scan o st => o.name ++ [',', ' '] ++ st.name
  | .encoded bs => Status.ok.name ++ [',', ' '] ++ traceBytes bs
  | .decoded n => Status.ok.name ++ ", consumed ".toList ++ (toString n).toList

/-- A whole trace line with its result. -/
def traceLine (i : Instr) (r : Response) : Option (List Char) :=
  (Instr.trace i).map fun t => t ++ " -> ".toList ++ r.trace

end Sys2Proof.Machine
end

