-- ==== Sys2Proof/Tests/Slice0.lean ====
section
/-! SUPPORT. Tests. Expected results are the spec's own: the encodings of 30_encoding.md, the vectors of
95_test_vectors.md (named by their ids) and the examples of the operation rules. The second half shows, for every
statement with hypotheses, a state and operands that meet them. -/
namespace Sys2Proof.Machine.Test
open Sys2Proof

/-! ### Well-formedness (30_encoding.md R79) -/

theorem test_wellFormed_refuses_long_record :
    Instr.wellFormed (.wireDpRaw 1 65 (List.replicate 65 0)) = false ∧
    Instr.wellFormed (.wireDpBool 1 65 (List.replicate 65 0)) = false ∧
    Instr.wellFormed (.wireDpValue 1 0x0100 (List.replicate 256 0)) = false ∧
    Instr.wellFormed (.wireDpString 1 65 (List.replicate 65 0)) = false ∧
    Instr.wellFormed (.wireDpEnum 1 65 (List.replicate 65 0)) = false ∧
    Instr.wellFormed (.wireDpBitmap 1 65 (List.replicate 65 0)) = false := by decide

theorem test_wellFormed_refuses_short_record :
    Instr.wellFormed (.wireDpRaw 1 4 [1, 2, 3]) = false ∧ Instr.wellFormed (.wireDpBool 1 1 []) = false ∧
    Instr.wellFormed (.wireDpValue 1 4 [1, 2, 3]) = false ∧ Instr.wellFormed (.wireDpString 1 1 []) = false ∧
    Instr.wellFormed (.wireDpEnum 1 1 []) = false ∧ Instr.wellFormed (.wireDpBitmap 1 2 [1]) = false := by decide

theorem test_wellFormed_accepts_whole_record :
    Instr.wellFormed (.wireDpRaw 1 64 (List.replicate 64 0)) = true ∧ Instr.wellFormed (.wireDpBool 1 0 []) = true ∧
    Instr.wellFormed (.wireDpValue 1 4 [1, 2, 3, 4, 5]) = true := by decide

/-! ### Decoding: words written out from R80, R70 and R76 -/

theorem test_decode_reset : decodeRequest [0b00000000] = .ok (.reset, []) := by decide
theorem test_decode_rxReset : decodeRequest [0b00010000] = .ok (.rxReset, []) := by decide
theorem test_decode_rxPush : decodeRequest [0b00010001, 0x55] = .ok (.rxPush 0x55, []) := by decide
theorem test_decode_rxScan : decodeRequest [0b00010010] = .ok (.rxScan, []) := by decide
theorem test_decode_rxPass : decodeRequest [0b00010011] = .ok (.rxPass, []) := by decide
theorem test_decode_txFrame :
    decodeRequest [0b00100000, 0x03, 0x07, 2, 0xAB, 0xCD] = .ok (.txFrame 0x03 0x07 [0xAB, 0xCD], []) := by decide
theorem test_decode_dpSetRaw :
    decodeRequest [0b00110000, 0x10, 4, 0xDE, 0xAD, 0xBE, 0xEF] = .ok (.dpSetRaw 0x10 [0xDE, 0xAD, 0xBE, 0xEF], []) := by
  decide
theorem test_decode_dpSetBool :
    decodeRequest [0b00110001, 0x01, 1] = .ok (.dpSetBool 0x01 true, []) ∧
    decodeRequest [0b00110001, 0x01, 0] = .ok (.dpSetBool 0x01 false, []) := by decide
theorem test_decode_dpSetValue :
    decodeRequest [0b00110010, 0x02, 0x80, 0x00, 0x00, 0x01] = .ok (.dpSetValue 0x02 0x80000001, []) := by decide
theorem test_decode_dpSetString :
    decodeRequest [0b00110011, 0x03, 3, 0x61, 0x62, 0x63] = .ok (.dpSetString 0x03 [0x61, 0x62, 0x63], []) := by decide
theorem test_decode_dpSetEnum : decodeRequest [0b00110100, 0x04, 0x02] = .ok (.dpSetEnum 0x04 0x02, []) := by decide
theorem test_decode_dpSetBitmap :
    decodeRequest [0b00110101, 0x05, 1, 0x80, 0x38] = .ok (.dpSetBitmap 0x05 [0x80], [0x38]) := by decide
theorem test_decode_dpEnc : decodeRequest [0b00111000] = .ok (.dpEnc, []) := by decide
theorem test_decode_dpDec :
    decodeRequest [0b00111001, 5, 1, 1, 0, 1, 1] = .ok (.dpDec [1, 1, 0, 1, 1], []) := by decide
theorem test_decode_wireFrame :
    decodeFrame [0b01010101, 0b10101010, 0x03, 0x07, 0x01, 0x05, 0x99] = .ok (.wireFrame 0x03 0x07 0x0105, [0x99]) := by
  decide
theorem test_decode_wireDpRaw : decodeRecord [0x10, 0b00000000, 0, 1, 9] = .ok (.wireDpRaw 0x10 1 [9], []) := by decide
theorem test_decode_wireDpBool : decodeRecord [0x01, 0b00000001, 0, 1, 1] = .ok (.wireDpBool 0x01 1 [1], []) := by decide
theorem test_decode_wireDpValue :
    decodeRecord [0x02, 0b00000010, 0, 4, 0, 0, 0, 7] = .ok (.wireDpValue 0x02 4 [0, 0, 0, 7], []) := by decide
theorem test_decode_wireDpString :
    decodeRecord [0x03, 0b00000011, 1, 2, 0x61] = .ok (.wireDpString 0x03 0x0102 [0x61], []) := by decide
theorem test_decode_wireDpEnum : decodeRecord [0x04, 0b00000100, 0, 1, 2] = .ok (.wireDpEnum 0x04 1 [2], []) := by decide
theorem test_decode_wireDpBitmap :
    decodeRecord [0x05, 0b00000101, 0, 1, 0x80] = .ok (.wireDpBitmap 0x05 1 [0x80], []) := by decide

/-- What is no instruction is rejected by name (R79, R82, log entry 9). -/
theorem test_decode_rejects :
    decodeRequest [0x21] = .error (.reservedOp 0x21) ∧ decodeRequest [0x36] = .error (.reservedOp 0x36) ∧
    decodeRequest [0x11] = .error .truncated ∧ decodeRequest [0x39, 2, 1] = .error .truncated ∧
    decodeFrame [0x55, 0xAB, 0, 0, 0, 0] = .error .noSync ∧ decodeFrame [0x55, 0xAA, 0, 0, 0] = .error .truncated ∧
    decodeRecord [1, 6, 0, 0] = .error (.reservedType 6) ∧ decodeRecord [1, 0, 0] = .error .truncated := by decide

/-- A byte string of 255 bytes or more (R81: "any natural number"; log entry 2). -/
theorem test_decode_long_string :
    decodeLen [0xFF, 0xFF, 0x01, 0x41] = some (511, [0x41]) ∧ decodeLen [0xFF, 0x00, 0x41] = some (255, [0x41]) ∧
    decodeLen [0xFE, 0x41] = some (254, [0x41]) := by decide

/-- The rows of spec/opcode_table.json. -/
theorem test_table_requests :
    decodeTableWord 8 0x00 = some .reset ∧ decodeTableWord 8 0x10 = some .rxReset ∧
    decodeTableWord 8 0x11 = some (.rxPush 0) ∧ decodeTableWord 8 0x12 = some .rxScan ∧
    decodeTableWord 8 0x13 = some .rxPass ∧ decodeTableWord 8 0x20 = some (.txFrame 0 0 []) ∧
    decodeTableWord 8 0x30 = some (.dpSetRaw 0 []) ∧ decodeTableWord 8 0x31 = some (.dpSetBool 0 false) ∧
    decodeTableWord 8 0x32 = some (.dpSetValue 0 0) ∧ decodeTableWord 8 0x33 = some (.dpSetString 0 []) ∧
    decodeTableWord 8 0x34 = some (.dpSetEnum 0 0) ∧ decodeTableWord 8 0x35 = some (.dpSetBitmap 0 []) ∧
    decodeTableWord 8 0x38 = some .dpEnc ∧ decodeTableWord 8 0x39 = some (.dpDec []) ∧
    decodeTableWord 8 0x36 = none := by decide
theorem test_table_patterns :
    decodeTableWord 16 0x55AA = some (.wireFrame 0 0 0) ∧ decodeTableWord 48 0x55AA03070000 = some (.wireFrame 3 7 0) ∧
    decodeTableWord 24 0x000000 = some (.wireDpRaw 0 0 []) ∧ decodeTableWord 24 0x010000 = some (.wireDpBool 0 0 []) ∧
    decodeTableWord 24 0x020000 = some (.wireDpValue 0 0 []) ∧
    decodeTableWord 24 0x030000 = some (.wireDpString 0 0 []) ∧
    decodeTableWord 32 0x04040001 = some (.wireDpEnum 4 1 [0]) ∧
    decodeTableWord 32 0x05050000 = some (.wireDpBitmap 5 0 []) ∧ decodeTableWord 32 0x00060000 = none := by decide

/-! ### Helpers: one operation on a small state -/

/-- Parameters of the vectors with small buffers. -/
def caps (n : Nat) (c : CsumPolicy) : Params := { rxCap := n, txCap := n, csumPolicy := c }

/-- The reset state with these parameters, these bytes held and these answers waiting. -/
def start (p : Params) (bs : List Byte) (rx : List ReadAnswer) (tx : List WriteAnswer) : State :=
  State.withHeld bs { State.reset with params := p, env := { State.reset.env with rxIn := rx, txAns := tx } }

/-- What a vector names: the bytes held, the status, the events and what was returned. -/
structure SeenRx where
  held : List Byte
  stat : Status
  events : List FrameEvent
  responses : List Response
  /-- The answers still waiting in the transport. -/
  waiting : List ReadAnswer
  deriving DecidableEq
structure SeenTx where
  frame : List Byte
  len : Nat
  sent : Nat
  stat : Status
  log : List Byte
  deriving DecidableEq
structure SeenDp where
  point : Option DataPoint
  stat : Status
  responses : List Response
  deriving DecidableEq
def seenRx (s : State) : SeenRx := ⟨s.rx.held, s.rx.stat, s.env.events, s.env.responses, s.env.rxIn⟩
def seenTx (s : State) : SeenTx := ⟨s.tx.frame, s.tx.len, s.tx.sent, s.tx.stat, s.env.txlog⟩
def seenDp (s : State) : SeenDp := ⟨s.dp.dataPoint, s.dp.stat, s.env.responses⟩

/-- The operation's state after it, if it gives one. -/
def runOn (i : Instr) (s : State) : Option State :=
  match exec i s with
  | .next t => some t
  | .fault _ => none
  | .refused _ => none

/-- The state after one step, if it gives one. -/
def stepOn (s : State) : Option State :=
  match step s with
  | .next t => some t
  | .fault _ => none
  | .refused _ => none

/-- The reset state with a data point in the register. -/
def holding (id : Byte) (ty : DpType) (len : Half) (val : DpVal) : State :=
  { State.reset with dp := { id := id, type := ty, len := len, val := val, valid := true, stat := .ok } }

def std : Params := Params.suggested
def good : List Byte := [0x55, 0xAA, 0x00, 0x01, 0x00, 0x01, 0x05, 0x06]
def goodEvent : FrameEvent := { ver := 0, cmd := 1, len := 1, payload := [5] }

/-! ### The spec's vectors -/

/-- Section 8: the three counts, the statuses and `DP_VALID`; the bytes held become unreachable. -/
theorem test_reset :
    (runOn .reset { start std good [] [] with
      tx := { buf := [(0, 0x55)], len := 1, sent := 0, stat := .transportWriteError } }).map
      (fun t => (seenRx t, seenTx t, seenDp t)) =
    some (⟨[], .ok, [], [], []⟩, ⟨[], 0, 0, .ok, []⟩, ⟨none, .ok, []⟩) := by decide
/-- RX18. -/
theorem test_rxReset : (runOn .rxReset (start std [1, 2, 3, 4, 5] [] [])).map seenRx =
    some ⟨[], .ok, [], [.status .ok], []⟩ := by decide
/-- RX16. -/
theorem test_rxPush_fills : (runOn (.rxPush 7) (start (caps 8 .drop1) [1, 2, 3, 4, 5, 6, 0] [] [])).map seenRx =
    some ⟨[1, 2, 3, 4, 5, 6, 0, 7], .ok, [], [.status .ok], []⟩ := by decide
/-- RX17. -/
theorem test_rxPush_overflows : (runOn (.rxPush 0x55) (start (caps 8 .drop1) [1, 2, 3, 4, 5, 6, 7, 8] [] [])).map seenRx =
    some ⟨[], .malformedFrame, [], [.status .malformedFrame], []⟩ := by decide
/-- RX2, RX4, RX6, RX7. -/
theorem test_rxScan_parses :
    (runOn .rxScan (start std [0x55, 0xAA, 0, 1, 0] [] [])).map seenRx =
      some ⟨[0x55, 0xAA, 0, 1, 0], .ok, [], [.scan .waitHdr .ok], []⟩ ∧
    (runOn .rxScan (start std [0x55, 0xAA, 0, 1, 0, 1, 5] [] [])).map seenRx =
      some ⟨[0x55, 0xAA, 0, 1, 0, 1, 5], .ok, [], [.scan .waitBody .ok], []⟩ ∧
    (runOn .rxScan (start std (good ++ [0x55]) [] [])).map seenRx =
      some ⟨[0x55], .ok, [goodEvent], [.scan .dispatch .ok], []⟩ ∧
    (runOn .rxScan (start std [0, 0x55, 0xAA, 0, 1, 0] [] [])).map seenRx =
      some ⟨[0x55, 0xAA, 0, 1, 0], .ok, [], [.scan .drop .ok], []⟩ := by decide
/-- RX9, RX10, RX11, RX12. -/
theorem test_rxScan_errors :
    (runOn .rxScan (start std [0x55, 0xAA, 0, 1, 0, 1, 5, 7] [] [])).map seenRx =
      some ⟨[0xAA, 0, 1, 0, 1, 5, 7], .checksumError, [], [.scan .badSum .checksumError], []⟩ ∧
    (runOn .rxScan (start (caps 256 .hold) [0x55, 0xAA, 0, 1, 0, 1, 5, 7] [] [])).map seenRx =
      some ⟨[0x55, 0xAA, 0, 1, 0, 1, 5, 7], .checksumError, [], [.scan .badSum .checksumError], []⟩ ∧
    (runOn .rxScan (start (caps 16 .drop1) [0x55, 0xAA, 0, 1, 0, 0x0A] [] [])).map seenRx =
      some ⟨[], .malformedFrame, [], [.scan .tooLong .malformedFrame], []⟩ ∧
    (runOn .rxScan (start (caps 16 .drop1) [0x55, 0xAA, 0, 1, 0, 9] [] [])).map seenRx =
      some ⟨[0x55, 0xAA, 0, 1, 0, 9], .ok, [], [.scan .waitBody .ok], []⟩ := by decide
/-- S1 and PA3. -/
theorem test_rxPass_parses :
    (runOn .rxPass (start std [] (([0x55, 0xAA, 0, 0, 0, 0, 0xFF] ++ good).map .byte) [])).map seenRx =
      some ⟨[], .ok, [{ ver := 0, cmd := 0, len := 0, payload := [] }, goodEvent], [.status .ok], []⟩ ∧
    (runOn .rxPass (start std [] (([1, 2, 3, 4, 5, 6, 7, 8, 9, 10] : List Byte).map .byte) [])).map seenRx =
      some ⟨[6, 7, 8, 9, 10], .ok, [], [.status .ok], []⟩ := by decide
/-- PA8, PA9, PA10: what each leaves in the transport too. -/
theorem test_rxPass_ends :
    (runOn .rxPass (start std [] (good.map .byte ++ [.error, .byte 0x55]) [])).map seenRx =
      some ⟨good, .transportReadError, [], [.status .transportReadError], [.byte 0x55]⟩ ∧
    (runOn .rxPass (start std [] [.byte 0x55, .byte 0xAA, .noData, .byte 0] [])).map seenRx =
      some ⟨[0x55, 0xAA], .ok, [], [.status .ok], [.byte 0]⟩ ∧
    (runOn .rxPass (start (caps 8 .drop1) [] (([1, 2, 3, 4, 5, 6, 7, 8, 9, 10] : List Byte).map .byte) [])).map seenRx =
      some ⟨[], .malformedFrame, [], [.status .malformedFrame], [.byte 10]⟩ := by decide
/-- TX2, TX7. -/
theorem test_txFrame_sends :
    (runOn (.txFrame 0 1 [5]) State.reset).map seenTx = some ⟨good, 8, 8, .ok, good⟩ ∧
    (runOn (.txFrame 1 2 [0, 1, 2, 3, 4, 5, 6, 7, 8, 9]) (start (caps 16 .drop1) [] [] [])).map seenTx =
      some ⟨[], 0, 0, .txTooLong, []⟩ := by decide
/-- TX4: the write of byte 6 fails. -/
theorem test_txFrame_fails :
    (runOn (.txFrame 3 7 [1, 1, 0, 1, 1]) (start std [] [] [.ok, .ok, .ok, .ok, .ok, .ok, .error])).map seenTx =
      some ⟨[0x55, 0xAA, 3, 7, 0, 5, 1, 1, 0, 1, 1, 0x12], 12, 6, .transportWriteError, [0x55, 0xAA, 3, 7, 0, 5]⟩ := by
  decide
/-- SE2: byte 0x40 is dropped. -/
theorem test_dpSetRaw :
    (runOn (.dpSetRaw 9 ((List.range 65).map (BitVec.ofNat 8))) State.reset).map seenDp =
      some ⟨some { id := 9, type := .raw, len := 64, val := .raw ((List.range 64).map (BitVec.ofNat 8)) }, .ok,
        [.status .ok]⟩ := by decide
/-- SE4. -/
theorem test_dpSetBool : (runOn (.dpSetBool 1 true) State.reset).map seenDp =
    some ⟨some { id := 1, type := .bool, len := 1, val := .bool true }, .ok, [.status .ok]⟩ := by decide
/-- SE5. -/
theorem test_dpSetValue : (runOn (.dpSetValue 2 (-2)) State.reset).map seenDp =
    some ⟨some { id := 2, type := .value, len := 4, val := .value (-2) }, .ok, [.status .ok]⟩ := by decide
/-- SE8, SE10. -/
theorem test_dpSetString :
    (runOn (.dpSetString 3 (List.replicate 64 0x41)) State.reset).map seenDp =
      some ⟨some { id := 3, type := .string, len := 63, val := .str (List.replicate 63 0x41) }, .ok, [.status .ok]⟩ ∧
    (runOn (.dpSetString 3 [0x61, 0, 0x62]) State.reset).map seenDp =
      some ⟨some { id := 3, type := .string, len := 1, val := .str [0x61] }, .ok, [.status .ok]⟩ := by decide
/-- SE12. -/
theorem test_dpSetEnum : (runOn (.dpSetEnum 4 2) State.reset).map seenDp =
    some ⟨some { id := 4, type := .enum, len := 1, val := .enum 2 }, .ok, [.status .ok]⟩ := by decide
/-- SE13. -/
theorem test_dpSetBitmap : (runOn (.dpSetBitmap 5 [1, 2, 3, 4, 5]) State.reset).map seenDp =
    some ⟨some { id := 5, type := .bitmap, len := 4, val := .bitmap [1, 2, 3, 4] }, .ok, [.status .ok]⟩ := by decide
/-- EN1, EN4, EN5, and 1000 and -2147483648 of the VALUE table. -/
theorem test_dpEnc_records :
    (runOn .dpEnc (holding 0x10 .raw 4 (.raw [0xDE, 0xAD, 0xBE, 0xEF]))).map (·.env.responses) =
      some [.encoded [0x10, 0, 0, 4, 0xDE, 0xAD, 0xBE, 0xEF]] ∧
    (runOn .dpEnc (holding 1 .bool 1 (.bool true))).map (·.env.responses) = some [.encoded [1, 1, 0, 1, 1]] ∧
    (runOn .dpEnc (holding 3 .string 3 (.str [0x61, 0x62, 0x63]))).map (·.env.responses) =
      some [.encoded [3, 3, 0, 3, 0x61, 0x62, 0x63]] ∧
    (runOn .dpEnc (holding 2 .value 4 (.value 1000))).map (·.env.responses) =
      some [.encoded [2, 2, 0, 4, 0, 0, 3, 0xE8]] ∧
    (runOn .dpEnc (holding 2 .value 4 (.value (-2147483648)))).map (·.env.responses) =
      some [.encoded [2, 2, 0, 4, 0x80, 0, 0, 0]] := by decide
/-- EN9, EN7, EN8. -/
theorem test_dpEnc_invalid :
    (runOn .dpEnc State.reset).map (fun t => (t.env.responses, t.dp.stat)) = some ([.status .dpInvalid], .dpInvalid) ∧
    (runOn .dpEnc (holding 4 .enum 1 (.enum 2))).map (·.env.responses) = some [.encoded [4, 4, 0, 1, 2]] ∧
    (runOn .dpEnc (holding 5 .bitmap 4 (.bitmap [1, 2, 3, 4]))).map (·.env.responses) =
      some [.encoded [5, 5, 0, 4, 1, 2, 3, 4]] := by decide
/-- DE10, DE12, DE24, DE30. -/
theorem test_dpDec_loads :
    (runOn (.dpDec [2, 2, 0, 4, 0xFF, 0xFF, 0xFF, 0xFE]) State.reset).map seenDp =
      some ⟨some { id := 2, type := .value, len := 4, val := .value (-2) }, .ok, [.decoded 8]⟩ ∧
    (runOn (.dpDec [2, 2, 0, 2, 0x12, 0x34]) State.reset).map seenDp =
      some ⟨some { id := 2, type := .value, len := 2, val := .value 305397760 }, .ok, [.decoded 6]⟩ ∧
    (runOn (.dpDec [3, 3, 0, 3, 0x61, 0, 0x62]) State.reset).map seenDp =
      some ⟨some { id := 3, type := .string, len := 3, val := .str [0x61] }, .ok, [.decoded 7]⟩ ∧
    (runOn (.dpDec [1, 1, 0, 1, 1, 2, 2, 0, 4, 0, 0, 0, 0x64]) State.reset).map seenDp =
      some ⟨some { id := 1, type := .bool, len := 1, val := .bool true }, .ok, [.decoded 5]⟩ := by decide
/-- DE2, DE3, DE6, DE7. -/
theorem test_dpDec_fails :
    (runOn (.dpDec [1, 1, 0]) (holding 1 .bool 1 (.bool true))).map seenDp =
      some ⟨none, .malformedDP, [.status .malformedDP]⟩ ∧
    (runOn (.dpDec ([1, 0, 0, 0x41] ++ List.replicate 65 0)) State.reset).map seenDp =
      some ⟨none, .malformedDP, [.status .malformedDP]⟩ ∧
    (runOn (.dpDec [1, 0, 0, 4, 1, 2, 3]) State.reset).map seenDp =
      some ⟨none, .malformedDP, [.status .malformedDP]⟩ ∧
    (runOn (.dpDec [1, 6, 0, 1, 0]) State.reset).map seenDp =
      some ⟨none, .malformedDP, [.status .malformedDP]⟩ := by decide
/-- RX5, and a header that does not lead the buffer (log entry 3). -/
theorem test_wireFrame :
    (runOn (.wireFrame 0 1 1) (start std good [] [])).map seenRx = some ⟨[], .ok, [goodEvent], [.scan .dispatch .ok], []⟩ ∧
    (runOn (.wireFrame 0 2 1) (start std good [] [])).map seenRx = some ⟨good, .ok, [], [], []⟩ := by decide
/-- DE27 shortened, and the failure DE6. -/
theorem test_wireDpRaw :
    (runOn (.wireDpRaw 1 2 [7, 0, 9]) State.reset).map seenDp =
      some ⟨some { id := 1, type := .raw, len := 2, val := .raw [7, 0] }, .ok, [.decoded 6]⟩ ∧
    (runOn (.wireDpRaw 1 4 [1, 2, 3]) State.reset).map seenDp = some ⟨none, .malformedDP, [.status .malformedDP]⟩ := by
  decide
/-- DE17, DE19. -/
theorem test_wireDpBool :
    (runOn (.wireDpBool 1 1 [2]) State.reset).map seenDp =
      some ⟨some { id := 1, type := .bool, len := 1, val := .bool true }, .ok, [.decoded 5]⟩ ∧
    (runOn (.wireDpBool 1 0 []) State.reset).map seenDp =
      some ⟨some { id := 1, type := .bool, len := 0, val := .bool false }, .ok, [.decoded 4]⟩ := by decide
/-- DE11, DE14. -/
theorem test_wireDpValue :
    (runOn (.wireDpValue 2 4 [0x80, 0, 0, 0]) State.reset).map seenDp =
      some ⟨some { id := 2, type := .value, len := 4, val := .value (-2147483648) }, .ok, [.decoded 8]⟩ ∧
    (runOn (.wireDpValue 2 6 [0, 0, 1, 0, 9, 9]) State.reset).map seenDp =
      some ⟨some { id := 2, type := .value, len := 6, val := .value 256 }, .ok, [.decoded 10]⟩ := by decide
/-- DE25. -/
theorem test_wireDpString :
    (runOn (.wireDpString 3 64 (List.replicate 64 0x41)) State.reset).map seenDp =
      some ⟨some { id := 3, type := .string, len := 64, val := .str (List.replicate 63 0x41) }, .ok, [.decoded 68]⟩ := by
  decide
/-- DE21, DE22. -/
theorem test_wireDpEnum :
    (runOn (.wireDpEnum 4 2 [7, 8]) State.reset).map seenDp =
      some ⟨some { id := 4, type := .enum, len := 2, val := .enum 7 }, .ok, [.decoded 6]⟩ ∧
    (runOn (.wireDpEnum 4 0 []) State.reset).map seenDp =
      some ⟨some { id := 4, type := .enum, len := 0, val := .enum 0 }, .ok, [.decoded 4]⟩ := by decide
/-- DE28. -/
theorem test_wireDpBitmap :
    (runOn (.wireDpBitmap 5 6 [1, 2, 3, 4, 5, 6]) State.reset).map seenDp =
      some ⟨some { id := 5, type := .bitmap, len := 6, val := .bitmap [1, 2, 3, 4, 5, 6] }, .ok, [.decoded 10]⟩ := by
  decide

/-- Section 2, the rows with carries out of 8 bits, with sync bytes in the payload and with a BOOL record. -/
theorem test_frameBytes :
    frameBytes 0xFF 0xFF [0xFF, 0xFF] = [0x55, 0xAA, 0xFF, 0xFF, 0, 2, 0xFF, 0xFF, 0xFD] ∧
    frameBytes 0 6 [0x55, 0xAA, 0, 0, 0, 0, 0xFF] = [0x55, 0xAA, 0, 6, 0, 7, 0x55, 0xAA, 0, 0, 0, 0, 0xFF, 0x0A] ∧
    frameBytes 3 7 [1, 1, 0, 1, 1] = [0x55, 0xAA, 3, 7, 0, 5, 1, 1, 0, 1, 1, 0x12] := by decide

/-- A step takes one request and leaves the next; `RX.SCAN` and `DP.DEC` run the pattern they meet. -/
theorem test_step :
    (stepOn (State.reset.withPort [0x11, 0x55, 0x12])).map (fun t => (t.rx.held, t.env.port)) = some ([0x55], [0x12]) ∧
    (stepOn ((start std good [] []).withPort [0x12])).map (fun t => t.env.events) = some [goodEvent] ∧
    step (State.reset.withPort [0x21]) = .refused (.reservedOp 0x21) ∧
    step (State.reset.withPort [0x11]) = .fault .truncatedRequest := ⟨by decide, by decide, rfl, rfl⟩

/-- A table word placed by `withFetchWord` is what the next step runs. -/
theorem test_fetchWord :
    (stepOn (State.reset.withFetchWord 8 0x11)).map seenRx = some ⟨[0], .ok, [], [.status .ok], []⟩ ∧
    (stepOn (State.reset.withFetchWord 16 0x55AA)).map seenRx =
      some ⟨[0xAA, 0, 0, 0, 0, 0], .checksumError, [], [.scan .badSum .checksumError], []⟩ ∧
    (stepOn (State.reset.withFetchWord 24 0x030000)).map seenDp =
      some ⟨some { id := 0, type := .string, len := 0, val := .str [] }, .ok, [.decoded 4]⟩ ∧
    (stepOn (State.reset.withFetchWord 32 0x00040000)).map seenDp =
      some ⟨some { id := 0, type := .enum, len := 0, val := .enum 0 }, .ok, [.decoded 4]⟩ := by decide

/-- R83, its own example, and a byte string, a decimal and a boolean. -/
theorem test_trace :
    traceLine (.rxPush 0x55) (.status .ok) = some "RX.PUSH 0x55 -> OK".toList ∧
    traceLine (.dpSetValue 2 (-2)) (.status .ok) = some "DP.SET_VALUE 0x02 -2 -> OK".toList ∧
    traceLine (.dpSetBool 1 true) (.status .ok) = some "DP.SET_BOOL 0x01 true -> OK".toList ∧
    traceLine .dpEnc (.encoded [0x02, 0xFE]) = some "DP.ENC -> OK, [02 FE]".toList ∧
    traceLine .rxScan (.scan .waitHdr .ok) = some "RX.SCAN -> WAIT_HDR, OK".toList := by decide

end Sys2Proof.Machine.Test
end

