-- ==== Sys2Proof/Tests/Witness.lean ====
section
/-! SUPPORT. For every statement of Certificates/Slice0/Obligations.lean that has hypotheses, states and operands that
meet all of them together: `witness_<statement>`, one conjunct or one theorem a clause, at a boundary of the clause's
range where it has one. -/
namespace Sys2Proof.Machine.Test
open Sys2Proof

/-! ### Encoding and the step -/

theorem witness_DecodeEncodeRoundTrip :
    (Instr.txFrame 0 1 [5]).format ≠ .dpRecord ∧ (Instr.wireFrame 0 1 1).format ≠ .dpRecord ∧
    (Instr.wireDpBool 1 1 [1]).format = .dpRecord := by decide

theorem witness_ReservedOperationIsRefused :
    (State.reset.withPort [0xFF]).env.port = [0xFF] ∧
    (0xFF : Byte) ∉ ([0x00, 0x10, 0x11, 0x12, 0x13, 0x20, 0x30, 0x31, 0x32, 0x33, 0x34, 0x35, 0x38, 0x39] : List Byte) ∧
    (0x36 : Byte) ∉ ([0x00, 0x10, 0x11, 0x12, 0x13, 0x20, 0x30, 0x31, 0x32, 0x33, 0x34, 0x35, 0x38, 0x39] : List Byte) := by
  decide

theorem witness_StepRunsTheRequest :
    decodeRequest (State.reset.withPort [0x11, 0x55, 0x12]).env.port = .ok (.rxPush 0x55, [0x12]) := by decide

theorem witness_StepRunsTheWirePattern :
    (decodeRequest ((start std (good.take 6) [] []).withPort [0x12]).env.port = .ok (.rxScan, []) ∧
      6 ≤ (start std (good.take 6) [] []).rx.cnt ∧
      Memory.readRange (start std (good.take 6) [] []).rx.buf 0 6 = [0x55, 0xAA, 0, 1, hi8 1, lo8 1]) ∧
    (decodeRequest (State.reset.withPort [0x39, 5, 1, 1, 0, 1, 1]).env.port = .ok (.dpDec [1, 1, 0, 1, 1], []) ∧
      decodeRecord [1, 1, 0, 1, 1] = .ok (.wireDpBool 1 1 [1], [])) := by decide

theorem witness_IdleStepHoldsTheState : State.reset.env.port = [] := rfl

/-! ### Whole machine -/

theorem witness_StepKeepsInvariant :
    ∃ t, ((start std good [] []).withPort [0x12]).Inv ∧ step ((start std good [] []).withPort [0x12]) = .next t :=
  ⟨_, by decide, rfl⟩

theorem witness_UnitsWriteOnlyTheirOwnState :
    (∃ t, exec .rxScan (start std good [] []) = .next t ∧ unitOf .rxScan = .rx) ∧
    (∃ t, exec (.txFrame 0 1 [5]) State.reset = .next t ∧ unitOf (.txFrame 0 1 [5]) = .tx) ∧
    (∃ t, exec (.dpSetBool 1 true) State.reset = .next t ∧ unitOf (.dpSetBool 1 true) = .dp) :=
  ⟨⟨_, rfl, rfl⟩, ⟨_, rfl, rfl⟩, ⟨_, rfl, rfl⟩⟩

/-- A state that differs from the reset state in the TX and DP units only. -/
def otherUnits : State :=
  { State.reset with
    tx := { buf := [(0, 0x55)], len := 0, sent := 0, stat := .txTooLong }
    dp := (holding 1 .bool 1 (.bool true)).dp }

theorem witness_UnitsReadOnlyTheirOwnState_rx :
    ∃ t t', otherUnits.params = State.reset.params ∧ otherUnits.env = State.reset.env ∧
      otherUnits.draws = State.reset.draws ∧ otherUnits ≠ State.reset ∧
      exec (.rxPush 7) otherUnits = .next t ∧ exec (.rxPush 7) State.reset = .next t' ∧
      otherUnits.rx = State.reset.rx := ⟨_, _, rfl, rfl, rfl, by decide, rfl, rfl, rfl⟩

theorem witness_UnitsReadOnlyTheirOwnState_tx_dp :
    ∃ t t' u u', exec (.txFrame 0 0 []) State.reset = .next t ∧
      exec (.txFrame 0 0 []) { State.reset with rx := { State.reset.rx with cnt := 3 } } = .next t' ∧
      exec .dpEnc State.reset = .next u ∧
      exec .dpEnc { State.reset with rx := { State.reset.rx with cnt := 3 } } = .next u' :=
  ⟨_, _, _, _, rfl, rfl, rfl, rfl⟩

/-- A state that differs from the reset state only in what nobody can see. -/
def unseen : State :=
  { State.reset with
    rx := { State.reset.rx with buf := [(3, 0x77)] }
    tx := { State.reset.tx with buf := [(0, 0x55)] }
    dp := { id := 9, type := .bool, len := 1, val := .bool true, valid := false, stat := .ok }
    draws := 4 }

theorem witness_UnspecifiedStateIsUnobservable :
    ∃ t, State.Inv (State.reset.withPort [0x38]) ∧ State.Inv (unseen.withPort [0x38]) ∧
      SameVisible (State.reset.withPort [0x38]) (unseen.withPort [0x38]) ∧
      State.reset.withPort [0x38] ≠ unseen.withPort [0x38] ∧ step (State.reset.withPort [0x38]) = .next t :=
  ⟨_, by decide, by decide, ⟨rfl, rfl, rfl, rfl, rfl, rfl⟩, by decide, rfl⟩

theorem witness_RecordsOnlyGrow : ∃ t, exec .rxPass (start std [] (good.map .byte) []) = .next t := ⟨_, rfl⟩

theorem witness_StatusRegisterHoldsTheReturnedStatus :
    (∃ t, exec .rxScan (start std good [] []) = .next t ∧ t.env.responses = [] ++ [.scan .dispatch .ok]) ∧
    (∃ t, exec (.txFrame 0 1 [5]) (start std [] [] [.error]) = .next t ∧
      t.env.responses = [] ++ [.status .transportWriteError]) ∧
    (∃ t, exec .dpEnc State.reset = .next t ∧ t.env.responses = [] ++ [.status .dpInvalid]) :=
  ⟨⟨_, rfl, by decide⟩, ⟨_, rfl, by decide⟩, ⟨_, rfl, by decide⟩⟩

theorem witness_AfterResetNothingIsHeld : ∃ t, exec .reset (start std good [] []) = .next t ∧ t.env.rxIn = [] :=
  ⟨_, rfl, rfl⟩

/-! ### RX unit -/

/-- RX17, RX16: the buffer full, and one byte short of full. -/
theorem witness_RxPushAppendsOrOverflows :
    (Memory.wf (start (caps 8 .drop1) [1, 2, 3, 4, 5, 6, 7, 8] [] []).rx.buf = true ∧
      (start (caps 8 .drop1) [1, 2, 3, 4, 5, 6, 7, 8] [] []).rx.cnt = 8) ∧
    (Memory.wf (start (caps 8 .drop1) [1, 2, 3, 4, 5, 6, 7] [] []).rx.buf = true ∧
      (start (caps 8 .drop1) [1, 2, 3, 4, 5, 6, 7] [] []).rx.cnt < 8) := by decide

/-- `k = 0`, a `k` between, and `k = RXCNT`. -/
theorem witness_DropFrontMovesTheRestDown :
    Memory.wf (start std good [] []).rx.buf = true ∧ 0 ≤ (start std good [] []).rx.cnt ∧
    1 ≤ (start std good [] []).rx.cnt ∧ (start std good [] []).rx.cnt = 8 ∧ 8 ≤ (start std good [] []).rx.cnt := by decide

/-- Five bytes; RX12 with six bytes and `7 + L = RX_CAP`; RX4 with one byte missing. -/
theorem witness_RxScanWaitsForMoreBytes :
    (start std (good.take 5) [] []).rx.cnt < 6 ∧
    (6 ≤ (start (caps 16 .drop1) [0x55, 0xAA, 0, 1, 0, 9] [] []).rx.cnt ∧
      Memory.read (start (caps 16 .drop1) [0x55, 0xAA, 0, 1, 0, 9] [] []).rx.buf 0 = 0x55 ∧
      Memory.read (start (caps 16 .drop1) [0x55, 0xAA, 0, 1, 0, 9] [] []).rx.buf 1 = 0xAA ∧
      (9 : Half) = be16 (Memory.read (start (caps 16 .drop1) [0x55, 0xAA, 0, 1, 0, 9] [] []).rx.buf 4)
        (Memory.read (start (caps 16 .drop1) [0x55, 0xAA, 0, 1, 0, 9] [] []).rx.buf 5) ∧
      7 + (9 : Half).toNat ≤ 16 ∧ (start (caps 16 .drop1) [0x55, 0xAA, 0, 1, 0, 9] [] []).rx.cnt < 7 + (9 : Half).toNat) ∧
    ((1 : Half) = be16 (Memory.read (start std (good.take 7) [] []).rx.buf 4)
        (Memory.read (start std (good.take 7) [] []).rx.buf 5) ∧
      (start std (good.take 7) [] []).rx.cnt < 7 + (1 : Half).toNat) := by decide

/-- RX7 and RX8: the first, and only the second, sync byte wrong, with six bytes held. -/
theorem witness_RxScanDropsOneByteOutOfSync :
    (Memory.wf (start std [0, 0x55, 0xAA, 0, 1, 0] [] []).rx.buf = true ∧
      6 ≤ (start std [0, 0x55, 0xAA, 0, 1, 0] [] []).rx.cnt ∧
      Memory.read (start std [0, 0x55, 0xAA, 0, 1, 0] [] []).rx.buf 0 ≠ 0x55) ∧
    (Memory.wf (start std [0x55, 0xAB, 0, 1, 0, 1] [] []).rx.buf = true ∧
      6 ≤ (start std [0x55, 0xAB, 0, 1, 0, 1] [] []).rx.cnt ∧
      Memory.read (start std [0x55, 0xAB, 0, 1, 0, 1] [] []).rx.buf 1 ≠ 0xAA) := by decide

/-- RX11: six bytes held and `7 + L = RX_CAP + 1`. -/
theorem witness_RxScanRejectsAFrameThatCannotFit :
    6 ≤ (start (caps 16 .drop1) [0x55, 0xAA, 0, 1, 0, 0x0A] [] []).rx.cnt ∧
    Memory.read (start (caps 16 .drop1) [0x55, 0xAA, 0, 1, 0, 0x0A] [] []).rx.buf 0 = 0x55 ∧
    Memory.read (start (caps 16 .drop1) [0x55, 0xAA, 0, 1, 0, 0x0A] [] []).rx.buf 1 = 0xAA ∧
    (10 : Half) = be16 (Memory.read (start (caps 16 .drop1) [0x55, 0xAA, 0, 1, 0, 0x0A] [] []).rx.buf 4)
      (Memory.read (start (caps 16 .drop1) [0x55, 0xAA, 0, 1, 0, 0x0A] [] []).rx.buf 5) ∧
    16 < 7 + (10 : Half).toNat := by decide

/-- The candidate of RX9 and RX10. -/
def bad : List Byte := [0x55, 0xAA, 0x00, 0x01, 0x00, 0x01, 0x05, 0x07]

/-- RX9 and RX10, one policy each; the buffer holds the candidate and nothing else. -/
theorem witness_RxScanReportsAChecksumMismatch :
    Memory.wf (start std bad [] []).rx.buf = true ∧ Memory.read (start std bad [] []).rx.buf 0 = 0x55 ∧
    Memory.read (start std bad [] []).rx.buf 1 = 0xAA ∧
    (1 : Half) = be16 (Memory.read (start std bad [] []).rx.buf 4) (Memory.read (start std bad [] []).rx.buf 5) ∧
    7 + (1 : Half).toNat ≤ std.rxCap ∧ 7 + (1 : Half).toNat ≤ (start std bad [] []).rx.cnt ∧
    ((Memory.readRange (start std bad [] []).rx.buf 0 (6 + (1 : Half).toNat)).map BitVec.toNat).sum % 256
      ≠ (Memory.read (start std bad [] []).rx.buf (6 + (1 : Half).toNat)).toNat ∧
    (start std bad [] []).params.csumPolicy = .drop1 ∧
    (start (caps 8 .hold) bad [] []).params.csumPolicy = .hold ∧
    (start (caps 8 .hold) bad [] []).rx.buf = (start std bad [] []).rx.buf := by decide

/-- RX19: a full buffer with `7 + L = RXCNT = RX_CAP`; and `L = 0`. -/
theorem witness_RxScanDispatchesAValidFrame :
    (Memory.wf (start (caps 8 .drop1) good [] []).rx.buf = true ∧
      Memory.read (start (caps 8 .drop1) good [] []).rx.buf 0 = 0x55 ∧
      Memory.read (start (caps 8 .drop1) good [] []).rx.buf 1 = 0xAA ∧
      (1 : Half) = be16 (Memory.read (start (caps 8 .drop1) good [] []).rx.buf 4)
        (Memory.read (start (caps 8 .drop1) good [] []).rx.buf 5) ∧
      7 + (1 : Half).toNat ≤ 8 ∧ 7 + (1 : Half).toNat ≤ (start (caps 8 .drop1) good [] []).rx.cnt ∧
      ((Memory.readRange (start (caps 8 .drop1) good [] []).rx.buf 0 (6 + (1 : Half).toNat)).map BitVec.toNat).sum % 256
        = (Memory.read (start (caps 8 .drop1) good [] []).rx.buf (6 + (1 : Half).toNat)).toNat) ∧
    ((Memory.readRange (start std [0x55, 0xAA, 0, 0, 0, 0, 0xFF] [] []).rx.buf 0 6).map BitVec.toNat).sum % 256
      = (Memory.read (start std [0x55, 0xAA, 0, 0, 0, 0, 0xFF] [] []).rx.buf 6).toNat := by decide

theorem witness_WireFrameIsTheScanOfItsCandidate :
    (6 ≤ (start std (good.take 6) [] []).rx.cnt ∧
      Memory.readRange (start std (good.take 6) [] []).rx.buf 0 6 = [0x55, 0xAA, 0, 1, hi8 1, lo8 1]) ∧
    (start std (good.take 5) [] []).rx.cnt < 6 ∧
    Memory.readRange (start std good [] []).rx.buf 0 6 ≠ [0x55, 0xAA, 0, 2, hi8 1, lo8 1] := by decide

theorem witness_NoFrameFromAnUnsyncedBuffer :
    (∃ t, exec .rxScan (start std good [] []) = .next t ∧ t.env.events ≠ (start std good [] []).env.events) ∧
    (∃ t, exec (.wireFrame 0 1 1) (start std good [] []) = .next t ∧
      t.env.events ≠ (start std good [] []).env.events) := ⟨⟨_, rfl, by decide⟩, ⟨_, rfl, by decide⟩⟩

/-- A read error; a byte for a full buffer; a byte with room for it; no data. -/
theorem witness_RxPassDrainsThenParses_phase1 :
    (start std good [.error, .byte 1] []).env.rxIn = .error :: [.byte 1] ∧
    ((start (caps 8 .drop1) good [.byte 9] []).env.rxIn = .byte 9 :: [] ∧
      (start (caps 8 .drop1) good [.byte 9] []).rx.cnt = (start (caps 8 .drop1) good [.byte 9] []).params.rxCap) ∧
    (∃ t, (start std good [.byte 9] []).env.rxIn = .byte 9 :: [] ∧
      (start std good [.byte 9] []).rx.cnt < (start std good [.byte 9] []).params.rxCap ∧
      exec (.rxPush 9) (start std good [.byte 9] []) = .next t) ∧
    (start std good [.noData, .byte 1] []).env.rxIn = .noData :: [.byte 1] :=
  ⟨rfl, ⟨rfl, rfl⟩, ⟨_, rfl, by decide, rfl⟩, rfl⟩

/-- Nothing to read, and each of the six outcomes of the scan that follows. -/
theorem witness_RxPassDrainsThenParses_phase2 :
    (∃ t, (start std [] [] []).env.rxIn = [] ∧ exec .rxScan (start std [] [] []) = .next t ∧
      t.env.responses = [] ++ [.scan .waitHdr .ok]) ∧
    (∃ t, exec .rxScan (start std [1, 2, 3, 4, 5, 6] [] []) = .next t ∧ t.env.responses = [] ++ [.scan .drop .ok]) ∧
    (∃ t, exec .rxScan (start (caps 7 .drop1) (good.take 6) [] []) = .next t ∧
      t.env.responses = [] ++ [.scan .tooLong .malformedFrame]) ∧
    (∃ t, exec .rxScan (start std (good.take 6) [] []) = .next t ∧ t.env.responses = [] ++ [.scan .waitBody .ok]) ∧
    (∃ t, exec .rxScan (start std bad [] []) = .next t ∧ t.env.responses = [] ++ [.scan .badSum .checksumError]) ∧
    (∃ t, exec .rxScan (start std good [] []) = .next t ∧ t.env.responses = [] ++ [.scan .dispatch .ok]) :=
  ⟨⟨_, rfl, rfl, by decide⟩, ⟨_, rfl, by decide⟩, ⟨_, rfl, by decide⟩, ⟨_, rfl, by decide⟩, ⟨_, rfl, by decide⟩,
    ⟨_, rfl, by decide⟩⟩

/-- PA4's first pass, where the last byte is a lone 0x55, and an empty buffer. -/
theorem witness_UnsyncedBytesDrainToFive :
    (Memory.wf (start std [1, 2, 3, 4, 5, 6, 7, 8, 9, 0x55] [] []).rx.buf = true ∧
      (∀ k, k < 9 → ¬ (Memory.read (start std [1, 2, 3, 4, 5, 6, 7, 8, 9, 0x55] [] []).rx.buf k = 0x55 ∧
        Memory.read (start std [1, 2, 3, 4, 5, 6, 7, 8, 9, 0x55] [] []).rx.buf (k + 1) = 0xAA)) ∧
      (start std [1, 2, 3, 4, 5, 6, 7, 8, 9, 0x55] [] []).env.rxIn = []) ∧
    State.reset.rx.cnt = 0 := by decide

/-- PA2's bytes, in a buffer of exactly their number. -/
theorem witness_JunkBeforeAFrameIsDropped :
    Memory.wf (start (caps 12 .drop1) ([0, 0x12, 0x55, 0x34] ++ good) [] []).rx.buf = true ∧
    (caps 12 .drop1).rxCap ≤ 65542 ∧ 7 + ([5] : List Byte).length ≤ 12 ∧
    (start (caps 12 .drop1) ([0, 0x12, 0x55, 0x34] ++ good) [] []).rx.cnt = 4 + (7 + ([5] : List Byte).length) ∧
    Memory.readRange (start (caps 12 .drop1) ([0, 0x12, 0x55, 0x34] ++ good) [] []).rx.buf 0 12 =
      [0, 0x12, 0x55, 0x34] ++ frameBytes 0 1 [5] ∧
    ∀ k, k < 4 → ¬ (Memory.read (start (caps 12 .drop1) ([0, 0x12, 0x55, 0x34] ++ good) [] []).rx.buf k = 0x55 ∧
      Memory.read (start (caps 12 .drop1) ([0, 0x12, 0x55, 0x34] ++ good) [] []).rx.buf (k + 1) = 0xAA) := by decide

/-- S1, in a buffer of exactly its length. -/
theorem witness_FrameBurstIsReceivedWhole :
    (start (caps 15 .drop1) [] (([0x55, 0xAA, 0, 0, 0, 0, 0xFF] ++ good).map .byte) []).rx.cnt = 0 ∧
    Memory.wf (start (caps 15 .drop1) [] (([0x55, 0xAA, 0, 0, 0, 0, 0xFF] ++ good).map .byte) []).rx.buf = true ∧
    (caps 15 .drop1).rxCap ≤ 65542 ∧
    ((([(0, 0, []), (0, 1, [5])] : List (Byte × Byte × List Byte)).map fun f =>
      frameBytes f.1 f.2.1 f.2.2).flatten).length ≤ 15 ∧
    (start (caps 15 .drop1) [] (([0x55, 0xAA, 0, 0, 0, 0, 0xFF] ++ good).map .byte) []).env.rxIn =
      ((([(0, 0, []), (0, 1, [5])] : List (Byte × Byte × List Byte)).map fun f =>
        frameBytes f.1 f.2.1 f.2.2).flatten).map ReadAnswer.byte := by decide

/-- `7 + |P| = RX_CAP`, with a payload that is itself a frame. -/
theorem witness_LoopBackDeliversTheFrame :
    Memory.wf (start (caps 14 .drop1) [] [] []).rx.buf = true ∧ (start (caps 14 .drop1) [] [] []).rx.cnt = 0 ∧
    (caps 14 .drop1).rxCap ≤ 65542 ∧ 7 + ([0x55, 0xAA, 0, 0, 0, 0, 0xFF] : List Byte).length ≤ 14 := by decide

/-- Section 3.2, offsets 0, 1, 2 and 7, in a buffer of exactly the frame's length. -/
theorem witness_SingleByteCorruptionIsDetected :
    Memory.wf (start (caps 8 .drop1) bad [] []).rx.buf = true ∧ (caps 8 .drop1).rxCap ≤ 65542 ∧
    7 + ([5] : List Byte).length ≤ 8 ∧ 7 + ([5] : List Byte).length ≤ (start (caps 8 .drop1) bad [] []).rx.cnt ∧
    (7 < 7 + ([5] : List Byte).length ∧ (0x07 : Byte) ≠ (frameBytes 0 1 [5]).getD 7 0 ∧
      Memory.readRange (start (caps 8 .drop1) bad [] []).rx.buf 0 8 = (frameBytes 0 1 [5]).set 7 0x07) ∧
    ((0x54 : Byte) ≠ (frameBytes 0 1 [5]).getD 0 0 ∧
      Memory.readRange (start std [0x54, 0xAA, 0, 1, 0, 1, 5, 6] [] []).rx.buf 0 8 = (frameBytes 0 1 [5]).set 0 0x54) ∧
    ((0xAB : Byte) ≠ (frameBytes 0 1 [5]).getD 1 0 ∧
      Memory.readRange (start std [0x55, 0xAB, 0, 1, 0, 1, 5, 6] [] []).rx.buf 0 8 = (frameBytes 0 1 [5]).set 1 0xAB) ∧
    ((1 : Byte) ≠ (frameBytes 0 1 [5]).getD 2 0 ∧
      Memory.readRange (start std [0x55, 0xAA, 1, 1, 0, 1, 5, 6] [] []).rx.buf 0 8 = (frameBytes 0 1 [5]).set 2 1) := by
  decide

theorem witness_HoldPolicyWedgesTheReceiver :
    ∃ t, (start (caps 256 .hold) bad [] []).params.csumPolicy = .hold ∧
      exec .rxScan (start (caps 256 .hold) bad [] []) = .next t ∧
      t.env.responses = (start (caps 256 .hold) bad [] []).env.responses ++ [.scan .badSum .checksumError] ∧
      t.env.rxIn = [] := ⟨_, rfl, rfl, by decide, rfl⟩

/-! ### TX unit -/

theorem witness_FrameBytesLayout : ([] : List Byte).length ≤ 65535 ∧ (List.replicate 65535 (0 : Byte)).length ≤ 65535 :=
  ⟨by decide, by rw [List.length_replicate]⟩

/-- `|P| + 7 = TX_CAP`, every write answered `Ok`; and an error behind the frame's last byte. -/
theorem witness_TxFrameSendsTheWholeFrame :
    Memory.wf (start (caps 8 .drop1) [] [] []).tx.buf = true ∧ ([5] : List Byte).length + 7 ≤ 8 ∧
    WriteAnswer.error ∉ (start (caps 8 .drop1) [] [] []).env.txAns.take (7 + ([5] : List Byte).length) ∧
    WriteAnswer.error ∉ (List.replicate 8 WriteAnswer.ok ++ [WriteAnswer.error]).take (7 + ([5] : List Byte).length) := by decide

/-- TX9's boundary: `|P| + 7 = TX_CAP + 1`. -/
theorem witness_TxFrameRefusesALongPayload : (start (caps 8 .drop1) [] [] []).params.txCap < ([5, 6] : List Byte).length + 7 := by
  decide

/-- TX3 and TX5: the first byte, and the checksum byte, with `|P| + 7 = TX_CAP`. -/
theorem witness_TxFrameStopsAtAWriteError :
    Memory.wf (start (caps 8 .drop1) [] [] [.error]).tx.buf = true ∧ ([5] : List Byte).length + 7 ≤ 8 ∧
    (0 < 7 + ([5] : List Byte).length ∧ WriteAnswer.error ∉ ([.error] : List WriteAnswer).take 0 ∧
      ([.error] : List WriteAnswer)[0]? = some .error) ∧
    (7 < 7 + ([5] : List Byte).length ∧ WriteAnswer.error ∉ (List.replicate 7 WriteAnswer.ok ++ [WriteAnswer.error]).take 7 ∧
      (List.replicate 7 WriteAnswer.ok ++ [WriteAnswer.error])[7]? = some .error) := by decide

/-! ### DP unit -/

/-- SE10: a 0x00 inside; SE11: nothing; SE8: no 0x00 and 64 bytes. -/
theorem witness_SetStringEndsAtNulAndAtSixtyThree :
    (1 ≤ ([0x61, 0, 0x62] : List Byte).length ∧ (∀ i, i < 1 → ([0x61, 0, 0x62] : List Byte).getD i 0 ≠ 0) ∧
      ([0x61, 0, 0x62] : List Byte).getD 1 0 = 0) ∧
    (0 ≤ ([] : List Byte).length ∧ 0 = ([] : List Byte).length) ∧
    (∀ i, i < 64 → (List.replicate 64 (0x41 : Byte)).getD i 0 ≠ 0) ∧ 64 = (List.replicate 64 (0x41 : Byte)).length := by
  decide

theorem witness_SettersEstablishTheInvariant :
    (∃ t, exec (.dpSetRaw 9 []) State.reset = .next t) ∧ (∃ t, exec (.dpSetString 3 [0x61]) State.reset = .next t) ∧
    (∃ t, exec (.dpSetBitmap 5 [1, 2, 3, 4, 5]) State.reset = .next t) ∧
    (∃ t, exec (.dpSetBool 1 true) State.reset = .next t) ∧ (∃ t, exec (.dpSetValue 2 5) State.reset = .next t) ∧
    (∃ t, exec (.dpSetEnum 4 2) State.reset = .next t) :=
  ⟨⟨_, rfl⟩, ⟨_, rfl⟩, ⟨_, rfl⟩, ⟨_, rfl⟩, ⟨_, rfl⟩, ⟨_, rfl⟩⟩

/-- One register a type; after a decode too, where `DP.len` and the content differ (DE18, DE24). -/
theorem witness_EncodeReturnsTheRecord :
    (holding 1 .raw 64 (.raw (List.replicate 64 7))).dp.consistent ∧ (holding 1 .bool 3 (.bool true)).dp.consistent ∧
    (holding 2 .value 4 (.value 0x80000000)).dp.consistent ∧ (holding 3 .string 3 (.str [0x61])).dp.consistent ∧
    (holding 4 .enum 1 (.enum 2)).dp.consistent ∧ (holding 5 .bitmap 0 (.bitmap [])).dp.consistent ∧
    (holding 5 .bitmap 0 (.bitmap [])).dp.valid = true := by decide

theorem witness_EncodeWithoutADataPointFails : State.reset.dp.valid = false := rfl

/-- Three bytes; `L = 65`; one byte missing; type 6. -/
theorem witness_DecodeRejectsMalformedRecords :
    ([1, 1, 0] : List Byte).length < 4 ∧ 64 < (be16 (([1, 0, 0, 65] : List Byte).getD 2 0) (([1, 0, 0, 65] : List Byte).getD 3 0)).toNat ∧
    ([1, 0, 0, 1] : List Byte).length < 4 + (be16 (([1, 0, 0, 1] : List Byte).getD 2 0) (([1, 0, 0, 1] : List Byte).getD 3 0)).toNat ∧
    5 < (([1, 6, 0, 0] : List Byte).getD 1 0).toNat := by decide

/-- `L = 64` with nothing behind the record, and `L = 0`. -/
theorem witness_DecodeLoadsEveryType :
    ((64 : Half).toNat ≤ 64 ∧ (64 : Half).toNat ≤ (List.replicate 64 (0x41 : Byte)).length ∧
      List.replicate 64 (0x41 : Byte) = (List.replicate 64 (0x41 : Byte)).take (64 : Half).toNat) ∧
    ((0 : Half).toNat ≤ 64 ∧ (0 : Half).toNat ≤ ([] : List Byte).length ∧ ([] : List Byte) = ([] : List Byte).take (0 : Half).toNat) ∧
    ((DpType.value = .value ∧ DpVal.value (s32 0 0 0 0) = .value (s32 (([] : List Byte).getD 0 0) (([] : List Byte).getD 1 0)
      (([] : List Byte).getD 2 0) (([] : List Byte).getD 3 0))) ∧ DpVal.bool false = .bool (([] : List Byte).getD 0 0 != 0)) := by decide

/-- Each of the six patterns, `L = 1`. -/
theorem witness_WireRecordsLoadTheDataPoint :
    ((1 : Half).toNat ≤ 64 ∧ (1 : Half).toNat ≤ ([7, 9] : List Byte).length ∧ ([7] : List Byte) = ([7, 9] : List Byte).take (1 : Half).toNat) ∧
    DpVal.bool true = .bool (([7] : List Byte).getD 0 0 != 0) ∧
    DpVal.value 0x07000000 = .value (s32 (([7] : List Byte).getD 0 0) (([7] : List Byte).getD 1 0) (([7] : List Byte).getD 2 0)
      (([7] : List Byte).getD 3 0)) ∧
    DpVal.str [7] = .str ((([7] : List Byte).take 63).takeWhile fun c => c != 0) ∧
    DpVal.enum 7 = .enum (([7] : List Byte).getD 0 0) := by decide

theorem witness_WireRecordsAreDecodedRecords :
    (Instr.wireDpRaw 1 65 []).format = .dpRecord ∧ (Instr.wireDpBitmap 5 1 [0x80]).format = .dpRecord := by decide

theorem witness_DecodeIgnoresTrailingBytes :
    ([1] : List Byte).length = (1 : Half).toNat ∧ (List.replicate 65 (0 : Byte)).length = (65 : Half).toNat := by decide

theorem witness_DecodeAfterEncodeRestoresTheDataPoint :
    (holding 3 .string 63 (.str (List.replicate 63 0x41))).dp.setterForm ∧
    (holding 5 .bitmap 4 (.bitmap [1, 2, 3, 4])).dp.setterForm ∧ (holding 9 .raw 64 (.raw (List.replicate 64 0))).dp.setterForm := by
  decide

/-- One canonical record a type. -/
theorem witness_EncodeAfterDecodeOfCanonicalRecords :
    (∃ t, ([7] : List Byte).length = (1 : Half).toNat ∧ (1 : Half).toNat ≤ 64 ∧
      exec (.dpDec ([1, DpType.raw.code, hi8 1, lo8 1] ++ [7] ++ [9])) State.reset = .next t) ∧
    (∃ t, exec (.dpDec ([1, DpType.bool.code, hi8 1, lo8 1] ++ [1] ++ [])) State.reset = .next t) ∧
    (∃ t, exec (.dpDec ([2, DpType.value.code, hi8 4, lo8 4] ++ [1, 2, 3, 4] ++ [])) State.reset = .next t) ∧
    (∃ t, (0 : Byte) ∉ ([0x61] : List Byte) ∧
      exec (.dpDec ([3, DpType.string.code, hi8 1, lo8 1] ++ [0x61] ++ [])) State.reset = .next t) ∧
    (∃ t, exec (.dpDec ([4, DpType.enum.code, hi8 1, lo8 1] ++ [2] ++ [])) State.reset = .next t) ∧
    (∃ t, exec (.dpDec ([5, DpType.bitmap.code, hi8 0, lo8 0] ++ [] ++ [])) State.reset = .next t) :=
  ⟨⟨_, rfl, by decide, rfl⟩, ⟨_, rfl⟩, ⟨_, rfl⟩, ⟨_, by decide, rfl⟩, ⟨_, rfl⟩, ⟨_, rfl⟩⟩

/-! ### The units together -/

theorem witness_TxDpSendsTheRecord :
    State.reset.dp.valid = false ∧
    ∃ t, exec .dpEnc (holding 1 .bool 1 (.bool true)) = .next t ∧
      t.env.responses = (holding 1 .bool 1 (.bool true)).env.responses ++ [.encoded [1, 1, 0, 1, 1]] :=
  ⟨rfl, _, rfl, by decide⟩

/-- Full-size operands of `DP.SET_RAW` and `DP.SET_STRING`, and the operand of program P1, at the least capacities that
carry a data point (00_scope.md R5: 75 = 7 + 4 + 64). The register `d` is any. -/
theorem witness_DataPointSurvivesTheLink :
    (∃ a, exec (.dpSetRaw 9 (List.replicate 64 7)) (start (caps 75 .hold) [] [] [.ok]) = .next a) ∧
    (∃ a, exec (.dpSetString 3 (List.replicate 63 0x41)) (start (caps 75 .hold) [] [] [.ok]) = .next a) ∧
    (∃ a, exec (.dpSetValue 2 (-2)) (start (caps 75 .hold) [] [] [.ok]) = .next a) ∧
    Memory.wf (start (caps 75 .hold) [] [] [.ok]).rx.buf = true ∧ (start (caps 75 .hold) [] [] [.ok]).rx.cnt = 0 ∧
    (start (caps 75 .hold) [] [] [.ok]).params.rxCap ≤ 65542 ∧ 75 ≤ (start (caps 75 .hold) [] [] [.ok]).params.rxCap ∧
    75 ≤ (start (caps 75 .hold) [] [] [.ok]).params.txCap ∧
    WriteAnswer.error ∉ (start (caps 75 .hold) [] [] [.ok]).env.txAns :=
  ⟨⟨_, rfl⟩, ⟨_, rfl⟩, ⟨_, rfl⟩, by decide, rfl, by decide, by decide, by decide, by decide⟩

end Sys2Proof.Machine.Test
end

section
/-! PROOFS of the scope statements (00_scope.md): what each unit leaves alone, what it does not look at, and that every
step keeps the invariant of the machine. They rest on the effect of each unit's instructions (Laws/Exec.lean). -/
namespace Sys2Proof.Machine
open Sys2Proof

/-! ### What an effect leaves unchanged (R2, R20) -/

section Frames
variable {s t : State} {res : Response}

theorem RxEffect.params_eq (e : RxEffect s t res) : t.params = s.params := by rw [e.frame]
theorem RxEffect.tx_eq (e : RxEffect s t res) : t.tx = s.tx := by rw [e.frame]
theorem RxEffect.dp_eq (e : RxEffect s t res) : t.dp = s.dp := by rw [e.frame]
theorem RxEffect.txAns_eq (e : RxEffect s t res) : t.env.txAns = s.env.txAns := by rw [e.frame]
theorem RxEffect.txlog_eq (e : RxEffect s t res) : t.env.txlog = s.env.txlog := by rw [e.frame]

theorem TxEffect.params_eq (e : TxEffect s t res) : t.params = s.params := by rw [e.frame]
theorem TxEffect.rx_eq (e : TxEffect s t res) : t.rx = s.rx := by rw [e.frame]
theorem TxEffect.dp_eq (e : TxEffect s t res) : t.dp = s.dp := by rw [e.frame]
theorem TxEffect.rxIn_eq (e : TxEffect s t res) : t.env.rxIn = s.env.rxIn := by rw [e.frame]
theorem TxEffect.events_eq (e : TxEffect s t res) : t.env.events = s.env.events := by rw [e.frame]

theorem DpEffect.params_eq (e : DpEffect s t res) : t.params = s.params := by rw [e.frame]
theorem DpEffect.rx_eq (e : DpEffect s t res) : t.rx = s.rx := by rw [e.frame]
theorem DpEffect.tx_eq (e : DpEffect s t res) : t.tx = s.tx := by rw [e.frame]
theorem DpEffect.env_eq (e : DpEffect s t res) :
    t.env = { s.env with responses := s.env.responses ++ [res] } := by rw [e.frame]
theorem DpEffect.events_eq (e : DpEffect s t res) : t.env.events = s.env.events := by rw [e.env_eq]

/-! ### Every effect keeps the invariant -/

theorem RxEffect.inv (e : RxEffect s t res) (h : s.Inv) : t.Inv := by
  obtain ⟨hp, hr, ht, hd, he⟩ := h
  obtain ⟨es, happ, hnew⟩ := e.events
  rw [State.Inv, e.params_eq, e.tx_eq, e.dp_eq, happ]
  exact ⟨hp, e.ok hr, ht, hd, List.forall_mem_append.mpr ⟨he, hnew⟩⟩

theorem TxEffect.inv (e : TxEffect s t res) (h : s.Inv) : t.Inv := by
  obtain ⟨hp, hr, ht, hd, he⟩ := h
  rw [State.Inv, e.params_eq, e.rx_eq, e.dp_eq, e.events_eq]
  exact ⟨hp, hr, e.ok hp ht, hd, he⟩

theorem DpEffect.inv (e : DpEffect s t res) (h : s.Inv) : t.Inv := by
  obtain ⟨hp, hr, ht, hd, he⟩ := h
  rw [State.Inv, e.params_eq, e.rx_eq, e.tx_eq, e.events_eq]
  exact ⟨hp, hr, ht, e.ok hd, he⟩

end Frames

/-- `RESET` empties both buffers' counts, so it keeps the bounds whatever bytes stay behind (R44, R230). -/
theorem execReset_inv (s t : State) (h : execReset s = .next t) (hs : s.Inv) : t.Inv := by
  obtain ⟨hp, ⟨hrw, hrb, _, _⟩, ⟨htw, htb, _, _, _⟩, _, he⟩ := hs
  cases h
  have hrx : RxUnit.ok s.params (s.rx.clear.raise .ok) := ⟨hrw, hrb, Nat.zero_le _, by simp⟩
  have htx : TxUnit.ok s.params { s.tx with len := 0, sent := 0, stat := .ok } :=
    ⟨htw, htb, Nat.zero_le _, .inl rfl, .inl ⟨rfl, rfl⟩⟩
  exact ⟨hp, hrx, htx, DpUnit.unspecified_ok _ _ (by simp), he⟩

/-- `RESET` is the only instruction of the block as a whole (R80). -/
theorem eq_reset_of_unitOf_block (i : Instr) (h : unitOf i = .block) : i = .reset := by
  cases i with
  | reset => rfl
  | _ => cases h

/-- Every instruction keeps the invariant, by the unit it belongs to. -/
theorem exec_inv (i : Instr) (s t : State) (h : exec i s = .next t) (hs : s.Inv) : t.Inv := by
  cases hu : unitOf i with
  | block =>
    obtain rfl := eq_reset_of_unitOf_block i hu
    exact execReset_inv s t h hs
  | rx =>
    obtain rfl | ⟨res, e⟩ := exec_rx i s t hu h
    · exact hs
    · exact e.inv hs
  | tx =>
    obtain ⟨res, e⟩ := exec_tx i s t hu h
    exact e.inv hs
  | dp =>
    obtain ⟨res, e⟩ := exec_dp i s t hu h
    exact e.inv hs

/-- Settles O9: a step is idle or runs an instruction on the state with the request taken, and taking the request
touches nothing the invariant speaks of. -/
theorem stepKeepsInvariant : Obligations.StepKeepsInvariant := by
  intro s t hs h
  obtain ⟨_, hidle⟩ | ⟨i, rest, _, hrun⟩ | ⟨_, _, _, _, href⟩ | ⟨_, _, _, _, hfault⟩ := step_cases s
  · rw [hidle, Host.Outcome.next.injEq] at h
    exact h ▸ hs
  · have htaken : (s.take rest).Inv := hs
    exact exec_inv i (s.take rest) t (hrun ▸ h) htaken
  · rw [href] at h
    cases h
  · rw [hfault] at h
    cases h

/-- Settles O11, clause by clause from the frame of the unit's effect. -/
theorem unitsWriteOnlyTheirOwnState : Obligations.UnitsWriteOnlyTheirOwnState := by
  intro i s t h
  refine ⟨fun hu => ?_, fun hu => ?_, fun hu => ?_⟩
  · obtain rfl | ⟨res, e⟩ := exec_rx i s t hu h
    · exact ⟨rfl, rfl, rfl, rfl⟩
    · exact ⟨e.tx_eq, e.dp_eq, e.txAns_eq, e.txlog_eq⟩
  · obtain ⟨res, e⟩ := exec_tx i s t hu h
    exact ⟨e.rx_eq, e.dp_eq, e.rxIn_eq, e.events_eq⟩
  · obtain ⟨res, e⟩ := exec_dp i s t hu h
    exact ⟨e.rx_eq, e.tx_eq, by rw [e.env_eq]⟩

/-! ### No unit looks at another

Replacing the other two units before an instruction is the same as replacing them after it. -/

/-- `s` with other TX and DP units, as an RX instruction may find it. -/
def State.withTxDp (tx : TxUnit) (dp : DpUnit) (s : State) : State := { s with tx := tx, dp := dp }
/-- `s` with other RX and DP units, as a TX instruction may find it. -/
def State.withRxDp (rx : RxUnit) (dp : DpUnit) (s : State) : State := { s with rx := rx, dp := dp }
/-- `s` with other RX and TX units, as a DP instruction may find it. -/
def State.withRxTx (rx : RxUnit) (tx : TxUnit) (s : State) : State := { s with rx := rx, tx := tx }

theorem exec_withTxDp (i : Instr) (s t : State) (tx : TxUnit) (dp : DpUnit) (hu : unitOf i = .rx)
    (h : exec i s = .next t) : exec i (s.withTxDp tx dp) = .next (t.withTxDp tx dp) := by
  cases i <;> simp only [unitOf, reduceCtorEq] at hu
  case rxPass =>
    simp only [exec, execRxPass, State.withTxDp] at h ⊢
    cases hd : (s.rx.drain s.params.rxCap s.env.rxIn).error with
    | some st =>
      rw [hd] at h
      cases h
      rfl
    | none =>
      rw [hd] at h
      cases h
      rfl
  case wireFrame ver cmd len =>
    simp only [exec, execWireFrame] at h ⊢
    by_cases hlead : s.rx.header = frameHeader ver cmd len
    · rw [if_pos hlead] at h
      cases h
      exact if_pos hlead
    · rw [if_neg hlead] at h
      cases h
      exact if_neg hlead
  all_goals
    cases h
    rfl

theorem exec_withRxDp (i : Instr) (s t : State) (rx : RxUnit) (dp : DpUnit) (hu : unitOf i = .tx)
    (h : exec i s = .next t) : exec i (s.withRxDp rx dp) = .next (t.withRxDp rx dp) := by
  cases i <;> simp only [unitOf, reduceCtorEq] at hu
  case txFrame ver cmd p =>
    simp only [exec, execTxFrame] at h ⊢
    by_cases hlong : s.params.txCap < p.length + 7
    · rw [if_pos hlong] at h
      cases h
      exact if_pos hlong
    · rw [if_neg hlong] at h
      cases h
      exact if_neg hlong

theorem State.dpRecord_withRxTx (id : Byte) (ty : DpType) (len : Half) (rest : List Byte) (rx : RxUnit) (tx : TxUnit)
    (s : State) : (s.withRxTx rx tx).dpRecord id ty len rest = (s.dpRecord id ty len rest).withRxTx rx tx := by
  unfold State.dpRecord
  split_ifs <;> rfl

theorem State.dpDecode_withRxTx (bs : List Byte) (rx : RxUnit) (tx : TxUnit) (s : State) :
    (s.withRxTx rx tx).dpDecode bs = (s.dpDecode bs).withRxTx rx tx := by
  unfold State.dpDecode
  split
  · split
    · rfl
    · exact State.dpRecord_withRxTx _ _ _ _ rx tx s
  · rfl

theorem exec_withRxTx (i : Instr) (s t : State) (rx : RxUnit) (tx : TxUnit) (hu : unitOf i = .dp)
    (h : exec i s = .next t) : exec i (s.withRxTx rx tx) = .next (t.withRxTx rx tx) := by
  by_cases hr : i.format = .dpRecord
  · obtain ⟨ty, id, len, rest, rfl⟩ := exists_recordInstr i hr
    rw [exec_recordInstr] at h ⊢
    cases h
    rw [State.dpRecord_withRxTx]
  · cases i <;> simp only [unitOf, Instr.format, reduceCtorEq, not_true_eq_false] at hu hr
    case dpEnc =>
      simp only [exec, execDpEnc] at h ⊢
      by_cases hvalid : s.dp.valid = true
      · rw [if_pos hvalid] at h
        cases h
        exact if_pos hvalid
      · rw [if_neg hvalid] at h
        cases h
        exact if_neg hvalid
    case dpDec bs =>
      simp only [exec, execDpDec] at h ⊢
      cases h
      rw [State.dpDecode_withRxTx]
    all_goals
      cases h
      rfl

/-- Settles O12: the second state is the first with its other two units replaced, so the second run ends in the first
run's state with the same two units replaced. -/
theorem unitsReadOnlyTheirOwnState : Obligations.UnitsReadOnlyTheirOwnState := by
  rintro i ⟨p, rx, tx, dp, env, n⟩ ⟨p', rx', tx', dp', env', n'⟩ t t' hp he hn h h'
  obtain ⟨rfl, rfl, rfl⟩ : p = p' ∧ env = env' ∧ n = n' := ⟨hp, he, hn⟩
  refine ⟨fun hu hunit => ?_, fun hu hunit => ?_, fun hu hunit => ?_⟩
  · obtain rfl : rx = rx' := hunit
    cases h'.symm.trans (exec_withTxDp i _ t tx' dp' hu h)
    exact ⟨rfl, rfl⟩
  · obtain rfl : tx = tx' := hunit
    cases h'.symm.trans (exec_withRxDp i _ t rx' dp' hu h)
    exact ⟨rfl, rfl⟩
  · obtain rfl : dp = dp' := hunit
    cases h'.symm.trans (exec_withRxTx i _ t rx' tx' hu h)
    exact ⟨rfl, rfl⟩

end Sys2Proof.Machine
end

section
/-! PROOFS of the statements about the whole machine (10_state.md): the reset state, the idle step, completion, the
record of a run, the status registers, and that what the spec leaves unspecified never shows. -/
namespace Sys2Proof.Machine
open Sys2Proof

/-! ### The reset state and the idle step (R21, R44) -/

/-- Settles O7: each value is the field's own in `State.reset`. -/
theorem resetValues : Obligations.ResetValues :=
  ⟨rfl, rfl, rfl, rfl, rfl, rfl, rfl, rfl⟩

/-- Settles O8, unit by unit: both buffers are empty, and the DP register holds nothing. -/
theorem resetMeetsInvariant : Obligations.ResetMeetsInvariant := by
  have hparams : Params.ok State.reset.params := by decide
  have hrx : RxUnit.ok State.reset.params State.reset.rx := by decide
  have htx : TxUnit.ok State.reset.params State.reset.tx := by decide
  have hdp : DpUnit.ok State.reset.dp := by decide
  exact ⟨hparams, hrx, htx, hdp, List.forall_mem_nil _⟩

/-- Settles O6. -/
theorem idleStepHoldsTheState : Obligations.IdleStepHoldsTheState := by
  intro s hidle
  simp only [step, hidle]

/-- A step with a whole request at the port runs it, whichever wire pattern it meets on the way (R58, R85). -/
theorem step_of_decodeRequest (s : State) (i : Instr) (rest : List Byte)
    (h : decodeRequest s.env.port = .ok (i, rest)) : step s = exec i (s.take rest) := by
  cases hp : s.env.port with
  | nil =>
    rw [hp, decodeRequest_nil] at h
    cases h
  | cons op bs =>
    rw [hp] at h
    simp only [step, hp, h, exec_recognise]

/-! ### Completion (R41, R210) -/

theorem exec_completes (i : Instr) (s : State) : ∃ t, exec i s = .next t := by
  cases i with
  | rxPass =>
    simp only [exec, execRxPass]
    split <;> exact ⟨_, rfl⟩
  | txFrame ver cmd p =>
    simp only [exec, execTxFrame]
    split <;> exact ⟨_, rfl⟩
  | dpEnc =>
    simp only [exec, execDpEnc]
    split <;> exact ⟨_, rfl⟩
  | wireFrame ver cmd len =>
    simp only [exec, execWireFrame]
    split <;> exact ⟨_, rfl⟩
  | _ => exact ⟨_, rfl⟩

/-- Everything an instruction can do: it is `RESET`, it changes nothing, or it has the effect of its unit. -/
theorem exec_cases (i : Instr) (s t : State) (h : exec i s = .next t) :
    i = .reset ∨ t = s ∨ ∃ res, RxEffect s t res ∨ TxEffect s t res ∨ DpEffect s t res := by
  cases hu : unitOf i with
  | block => exact .inl (eq_reset_of_unitOf_block i hu)
  | rx =>
    obtain rfl | ⟨res, e⟩ := exec_rx i s t hu h
    · exact .inr (.inl rfl)
    · exact .inr (.inr ⟨res, .inl e⟩)
  | tx =>
    obtain ⟨res, e⟩ := exec_tx i s t hu h
    exact .inr (.inr ⟨res, .inr (.inl e)⟩)
  | dp =>
    obtain ⟨res, e⟩ := exec_dp i s t hu h
    exact .inr (.inr ⟨res, .inr (.inr e)⟩)

theorem exec_params (i : Instr) (s t : State) (h : exec i s = .next t) : t.params = s.params := by
  obtain rfl | rfl | ⟨_, e | e | e⟩ := exec_cases i s t h
  · cases h
    rfl
  · rfl
  · exact e.params_eq
  · exact e.params_eq
  · exact e.params_eq

/-- Settles O10. -/
theorem everyOperationCompletes : Obligations.EveryOperationCompletes := by
  intro i s
  obtain ⟨t, h⟩ := exec_completes i s
  exact ⟨t, h, exec_params i s t h⟩

/-! ### The record of a run (R26, R42, R53, R231) -/

/-- From `e` to `e'` what was emitted, transmitted and returned is kept, the transport's answers are used from the
front, and no request is taken. -/
def Env.Extends (e e' : Env) : Prop :=
  e.events <+: e'.events ∧ e.txlog <+: e'.txlog ∧ e.responses <+: e'.responses ∧
    e'.rxIn <:+ e.rxIn ∧ e'.txAns <:+ e.txAns ∧ e'.port = e.port

theorem Env.Extends.refl (e : Env) : e.Extends e :=
  ⟨List.prefix_rfl, List.prefix_rfl, List.prefix_rfl, List.suffix_rfl, List.suffix_rfl, rfl⟩

section Records
variable {s t : State} {res : Response}

theorem RxEffect.responses_eq (e : RxEffect s t res) : t.env.responses = s.env.responses ++ [res] := by rw [e.frame]
theorem TxEffect.responses_eq (e : TxEffect s t res) : t.env.responses = s.env.responses ++ [res] := by rw [e.frame]
theorem DpEffect.responses_eq (e : DpEffect s t res) : t.env.responses = s.env.responses ++ [res] := by rw [e.env_eq]

theorem RxEffect.port_eq (e : RxEffect s t res) : t.env.port = s.env.port := by rw [e.frame]
theorem TxEffect.port_eq (e : TxEffect s t res) : t.env.port = s.env.port := by rw [e.frame]

theorem RxEffect.env_extends (e : RxEffect s t res) : s.env.Extends t.env := by
  obtain ⟨es, happ, _⟩ := e.events
  rw [Env.Extends, happ, e.txlog_eq, e.responses_eq, e.txAns_eq]
  exact ⟨List.prefix_append _ _, List.prefix_rfl, List.prefix_append _ _, e.rxIn, List.suffix_rfl, e.port_eq⟩

theorem TxEffect.env_extends (e : TxEffect s t res) : s.env.Extends t.env := by
  rw [Env.Extends, e.events_eq, e.responses_eq, e.rxIn_eq]
  exact ⟨List.prefix_rfl, e.txlog, List.prefix_append _ _, List.suffix_rfl, e.txAns, e.port_eq⟩

theorem DpEffect.env_extends (e : DpEffect s t res) : s.env.Extends t.env := by
  rw [e.env_eq]
  exact ⟨List.prefix_rfl, List.prefix_rfl, List.prefix_append _ _, List.suffix_rfl, List.suffix_rfl, rfl⟩

end Records

/-- Settles O14, effect by effect; `RESET` leaves the record as it is (R231). -/
theorem recordsOnlyGrow : Obligations.RecordsOnlyGrow := by
  intro i s t h
  show s.env.Extends t.env
  obtain rfl | rfl | ⟨_, e | e | e⟩ := exec_cases i s t h
  · cases h
    exact Env.Extends.refl _
  · exact Env.Extends.refl _
  · exact e.env_extends
  · exact e.env_extends
  · exact e.env_extends

/-! ### The status registers (R24, R31, R38) -/

/-- Settles O15: the response added is the one the unit's effect names, and the effect sets the register to its status.
A wire frame that changes nothing adds no response. -/
theorem statusRegisterHoldsTheReturnedStatus : Obligations.StatusRegisterHoldsTheReturnedStatus := by
  intro i s t r h hadd
  have unique : ∀ res, t.env.responses = s.env.responses ++ [res] → res = r := fun res hres => by
    simpa using hres.symm.trans hadd
  refine ⟨fun hu => ?_, fun hu => ?_, fun hu => ?_⟩
  · obtain rfl | ⟨res, e⟩ := exec_rx i s t hu h
    · simp at hadd
    · exact unique res e.responses_eq ▸ e.stat
  · obtain ⟨res, e⟩ := exec_tx i s t hu h
    exact unique res e.responses_eq ▸ e.stat
  · obtain ⟨res, e⟩ := exec_dp i s t hu h
    exact unique res e.responses_eq ▸ e.stat

/-! ### The setters (R39, R150) -/

/-- What a setter keeps is short enough for its length to be read back from `DP.len`. -/
theorem toNat_len_of_le {n : Nat} (h : n ≤ 64) : (BitVec.ofNat 16 n : Half).toNat = n := by
  rw [BitVec.toNat_ofNat]
  omega

/-- A value that fits, loaded with the length the encoder emits for it, is in the form R39 gives for after a setter. -/
theorem State.dpLoad_setterForm (id : Byte) (len : Half) (val : DpVal) (r : Response) (s : State)
    (hfits : val.fits = true) (hlen : val.hasLen len = true) (hle : len.toNat ≤ 64) (hemitted : len = encLen len val)
    (hbitmap : val.setterBitmap = true) :
    (s.dpLoad id val.type len val r).dp.setterForm ∧ (s.dpLoad id val.type len val r).dp.stat = .ok :=
  ⟨⟨rfl, ⟨rfl, hfits, hlen, hle⟩, hemitted, hbitmap⟩, rfl⟩

/-- Settles O44, setter by setter: the content is cut to its bound, and `DP.len` is the length of what was kept. -/
theorem settersEstablishTheInvariant : Obligations.SettersEstablishTheInvariant := by
  rintro i s t (⟨id, b, rfl | rfl | rfl⟩ | ⟨id, x, rfl⟩ | ⟨id, v, rfl⟩ | ⟨id, e, rfl⟩) h
  all_goals cases h
  · have hle : (keepRaw b).length ≤ 64 := by simp [keepRaw_length]
    have hlen := toNat_len_of_le hle
    exact State.dpLoad_setterForm id _ (.raw (keepRaw b)) _ s (decide_eq_true hle) (decide_eq_true hlen.symm)
      (hlen.trans_le hle) rfl rfl
  · have hle := keepString_length_le b
    have hle64 : (keepString b).length ≤ 64 := hle.trans (by decide)
    have hfits : (DpVal.str (keepString b)).fits = true := by
      simp only [DpVal.fits, Bool.and_eq_true, decide_eq_true_eq]
      exact ⟨hle, keepString_no_nul b⟩
    exact State.dpLoad_setterForm id _ (.str (keepString b)) _ s hfits rfl ((toNat_len_of_le hle64).trans_le hle64)
      rfl rfl
  · have hle : (keepBitmap b).length ≤ 4 := by simp [keepBitmap_length]
    have hle64 : (keepBitmap b).length ≤ 64 := hle.trans (by decide)
    have hlen := toNat_len_of_le hle64
    exact State.dpLoad_setterForm id _ (.bitmap (keepBitmap b)) _ s (decide_eq_true hle64) (decide_eq_true hlen.symm)
      (hlen.trans_le hle64) rfl (decide_eq_true hle)
  · exact State.dpLoad_setterForm id 1 (.bool x) _ s rfl rfl (by decide) rfl rfl
  · exact State.dpLoad_setterForm id 4 (.value v) _ s rfl rfl (by decide) rfl rfl
  · exact State.dpLoad_setterForm id 1 (.enum e) _ s rfl rfl (by decide) rfl rfl

end Sys2Proof.Machine
end

section
/-! PROOFS, continued: what 10_state.md leaves unspecified is never observable (R22, R28, R37). Two units are alike when
they agree on what can be observed of them; every operation takes units that are alike to units that are alike, since it
reads of a buffer only the bytes held. -/
namespace Sys2Proof.Machine
open Sys2Proof

/-! ### Units that are alike -/

/-- RX units with canonical buffers that differ only in bytes at or above `RXCNT` (R22). -/
structure RxUnit.Alike (r r' : RxUnit) : Prop where
  wf : Memory.wf r.buf = true
  wf' : Memory.wf r'.buf = true
  stat : r.stat = r'.stat
  held : r.held = r'.held

/-- TX units with canonical buffers that differ only in bytes at or above `TXLEN` (R28). -/
structure TxUnit.Alike (u u' : TxUnit) : Prop where
  wf : Memory.wf u.buf = true
  wf' : Memory.wf u'.buf = true
  len : u.len = u'.len
  sent : u.sent = u'.sent
  stat : u.stat = u'.stat
  frame : u.frame = u'.frame

/-- DP units that differ only in the fields of a register that holds nothing (R37). -/
structure DpUnit.Alike (d d' : DpUnit) : Prop where
  valid : d.valid = d'.valid
  stat : d.stat = d'.stat
  dataPoint : d.dataPoint = d'.dataPoint

/-- States with the same parameters and environment, and units that are alike. -/
structure State.Alike (s s' : State) : Prop where
  params : s.params = s'.params
  env : s.env = s'.env
  rx : s.rx.Alike s'.rx
  tx : s.tx.Alike s'.tx
  dp : s.dp.Alike s'.dp

theorem RxUnit.Alike.cnt {r r' : RxUnit} (h : r.Alike r') : r.cnt = r'.cnt := by
  rw [← r.held_length, h.held, r'.held_length]

/-- In states that meet the invariant, being alike is what `SameVisible` says. -/
theorem SameVisible.alike {s s' : State} (h : SameVisible s s') (hs : s.Inv) (hs' : s'.Inv) : s.Alike s' := by
  obtain ⟨_, ⟨hrx, _⟩, ⟨htx, _⟩, _⟩ := hs
  obtain ⟨_, ⟨hrx', _⟩, ⟨htx', _⟩, _⟩ := hs'
  exact
    { params := h.params
      env := h.env
      rx := ⟨hrx, hrx', h.rxstat, h.rxheld⟩
      tx := ⟨htx, htx', congrArg ReadBack.txlen h.readBack, congrArg ReadBack.txsent h.readBack,
        congrArg ReadBack.txstat h.readBack, congrArg ReadBack.txbuf h.readBack⟩
      dp := ⟨congrArg ReadBack.dpValid h.readBack, congrArg ReadBack.dpstat h.readBack,
        congrArg ReadBack.dp h.readBack⟩ }

theorem State.Alike.sameVisible {s s' : State} (h : s.Alike s') : SameVisible s s' where
  params := h.params
  env := h.env
  rxcnt := h.rx.cnt
  rxstat := h.rx.stat
  rxheld := h.rx.held
  readBack := by
    simp only [State.readBack, h.rx.cnt, h.rx.stat, h.tx.len, h.tx.sent, h.tx.stat, h.tx.frame, h.dp.valid, h.dp.stat,
      h.dp.dataPoint]

/-! ### The RX unit reads only held bytes (R22, R62) -/

section Rx
variable {r r' : RxUnit}

theorem RxUnit.Alike.raise (st : Status) (h : r.Alike r') : (r.raise st).Alike (r'.raise st) :=
  ⟨h.wf, h.wf', rfl, h.held⟩

theorem RxUnit.Alike.clear (h : r.Alike r') : r.clear.Alike r'.clear :=
  ⟨h.wf, h.wf', h.stat, rfl⟩

theorem RxUnit.Alike.header (h : r.Alike r') : r.header = r'.header := by
  simp only [RxUnit.header, ← h.cnt]
  split
  · rfl
  · rename_i h6
    rw [← r.held_take _ (by omega), ← r'.held_take _ (by rw [← h.cnt]; omega), h.held]

theorem RxUnit.Alike.push (cap : Nat) (b : Byte) (h : r.Alike r') : (r.push cap b).Alike (r'.push cap b) := by
  by_cases hfull : cap ≤ r.cnt
  · rw [RxUnit.push_full cap b r hfull, RxUnit.push_full cap b r' (h.cnt ▸ hfull)]
    exact h.clear.raise .malformedFrame
  · have hroom : r.cnt < cap := Nat.lt_of_not_le hfull
    have hroom' : r'.cnt < cap := h.cnt ▸ hroom
    have hheld : (r.push cap b).held = (r'.push cap b).held := by
      rw [RxUnit.held_push cap b r hroom h.wf, RxUnit.held_push cap b r' hroom' h.wf', h.held]
    rw [RxUnit.push_room cap b r hroom, RxUnit.push_room cap b r' hroom'] at hheld ⊢
    exact ⟨Memory.wf_write _ _ _ h.wf, Memory.wf_write _ _ _ h.wf', rfl, hheld⟩

/-- Steps of parsing that left units alike and showed the same. -/
structure ScanResult.Alike (q q' : ScanResult) : Prop where
  unit : q.unit.Alike q'.unit
  outcome : q.outcome = q'.outcome
  events : q.events = q'.events

/-- A step of parsing did what `l` says of the held bytes: nothing else of it can be observed. -/
structure ScanResult.Shows (q : ScanResult) (l : ListScan) : Prop where
  wf : Memory.wf q.unit.buf = true
  stat : q.unit.stat = q.outcome.status
  outcome : q.outcome = l.outcome
  left : q.unit.held = l.left
  events : q.events = l.events

theorem ScanResult.Shows.alike {q q' : ScanResult} {l : ListScan} (h : q.Shows l) (h' : q'.Shows l) : q.Alike q' :=
  have houtcome : q.outcome = q'.outcome := h.outcome.trans h'.outcome.symm
  { unit := ⟨h.wf, h'.wf, by rw [h.stat, h'.stat, houtcome], h.left.trans h'.left.symm⟩
    outcome := houtcome
    events := h.events.trans h'.events.symm }

theorem RxUnit.candidate_shows (p : Params) (ver cmd : Byte) (len : Half) (hw : Memory.wf r.buf = true) :
    (r.candidate p ver cmd len).Shows (listCandidate p ver cmd len r.held) := by
  obtain ⟨houtcome, hleft, hevents⟩ := RxUnit.candidate_list p ver cmd len r hw
  obtain ⟨hwf, _, _, hstat, _⟩ := RxUnit.candidate_keeps p ver cmd len r
  exact ⟨hwf hw, hstat, houtcome, hleft, hevents⟩

theorem RxUnit.scan_shows (p : Params) (hw : Memory.wf r.buf = true) : (r.scan p).Shows (listScan p r.held) := by
  obtain ⟨houtcome, hleft, hevents⟩ := RxUnit.scan_list p r hw
  obtain ⟨hwf, _, _, hstat, _⟩ := RxUnit.scan_keeps p r
  exact ⟨hwf hw, hstat, houtcome, hleft, hevents⟩

theorem RxUnit.Alike.candidate (p : Params) (ver cmd : Byte) (len : Half) (h : r.Alike r') :
    (r.candidate p ver cmd len).Alike (r'.candidate p ver cmd len) :=
  (RxUnit.candidate_shows p ver cmd len h.wf).alike (h.held ▸ RxUnit.candidate_shows p ver cmd len h.wf')

theorem RxUnit.Alike.scan (p : Params) (h : r.Alike r') : (r.scan p).Alike (r'.scan p) :=
  (RxUnit.scan_shows p h.wf).alike (h.held ▸ RxUnit.scan_shows p h.wf')

theorem RxUnit.Alike.parse (p : Params) (n : Nat) (h : r.Alike r') : (r.parse p n).Alike (r'.parse p n) := by
  induction n generalizing r r' with
  | zero => exact h.scan p
  | succ n ih =>
    have hscan := h.scan p
    have hrest := ih hscan.unit
    simp only [RxUnit.parse, ← hscan.outcome]
    split
    · exact ⟨hrest.unit, hrest.outcome, by rw [hscan.events, hrest.events]⟩
    · exact hscan

/-- Phases 1 that left units alike and ended in the same way. -/
structure DrainResult.Alike (d d' : DrainResult) : Prop where
  unit : d.unit.Alike d'.unit
  rest : d.rest = d'.rest
  error : d.error = d'.error

theorem RxUnit.Alike.drain (cap : Nat) (as : List ReadAnswer) (h : r.Alike r') :
    (r.drain cap as).Alike (r'.drain cap as) := by
  induction as generalizing r r' with
  | nil => exact ⟨h, rfl, rfl⟩
  | cons a as ih =>
    cases a with
    | noData => exact ⟨h, rfl, rfl⟩
    | error => exact ⟨h.raise _, rfl, rfl⟩
    | byte b =>
      have hpush := h.push cap b
      simp only [RxUnit.drain, ← hpush.stat]
      split
      · exact ih hpush
      · exact ⟨hpush, rfl, rfl⟩

end Rx

/-! ### The TX unit reads nothing of its buffer, the DP unit no field of an empty register (R28, R37) -/

/-- A data point is shown whole, so registers that hold one and are alike are the same. -/
theorem DpUnit.Alike.eq_of_valid {d d' : DpUnit} (h : d.Alike d') (hv : d.valid = true) : d = d' := by
  have hv' : d'.valid = true := h.valid ▸ hv
  have hdp := h.dataPoint
  simp only [DpUnit.dataPoint, hv, hv', if_true, Option.some.injEq, DataPoint.mk.injEq] at hdp
  obtain ⟨hid, htype, hlen, hval⟩ := hdp
  cases d
  cases d'
  exact (DpUnit.mk.injEq ..).mpr ⟨hid, htype, hlen, hval, h.valid, h.stat⟩

theorem DpUnit.Alike.raise {d d' : DpUnit} (st : Status) (h : d.Alike d') : (d.raise st).Alike (d'.raise st) :=
  ⟨h.valid, rfl, h.dataPoint⟩

theorem DpUnit.Alike.refl (d : DpUnit) : d.Alike d := ⟨rfl, rfl, rfl⟩

/-- Registers that hold nothing show nothing, whichever free values were drawn for them (log entry 5). -/
theorem DpUnit.Alike.unspecified (n n' : Nat) (st : Status) :
    (DpUnit.unspecified n st).Alike (DpUnit.unspecified n' st) := ⟨rfl, rfl, rfl⟩

/-- `TXLEN = 0` shows no byte of the buffer (R206, R230). -/
theorem TxUnit.Alike.emptied {u u' : TxUnit} (st : Status) (h : u.Alike u') :
    TxUnit.Alike { u with len := 0, sent := 0, stat := st } { u' with len := 0, sent := 0, stat := st } :=
  ⟨h.wf, h.wf', rfl, rfl, rfl, rfl⟩

/-! ### A pass in its two phases (R106) -/

/-- Phase 1 of a pass in `s`. -/
def State.drainPhase (s : State) : DrainResult := s.rx.drain s.params.rxCap s.env.rxIn

/-- Phase 2 of a pass, on the unit phase 1 left. -/
def State.parsePhase (s : State) : ScanResult := s.drainPhase.unit.parse s.params s.drainPhase.unit.cnt

/-- Phase 1 of a pass carried over to the state. -/
def State.drained (s : State) : State :=
  { s with rx := s.drainPhase.unit, env := { s.env with rxIn := s.drainPhase.rest } }

theorem execRxPass_of_error {s : State} {st : Status} (h : s.drainPhase.error = some st) :
    execRxPass s = .next (s.drained.respond (.status st)) := by
  unfold State.drainPhase at h
  simp only [execRxPass, h]
  rfl

theorem execRxPass_of_drained {s : State} (h : s.drainPhase.error = none) :
    execRxPass s = .next (State.respond (.status s.parsePhase.outcome.status)
      (State.emit s.parsePhase.events { s.drained with rx := s.parsePhase.unit })) := by
  unfold State.drainPhase at h
  simp only [execRxPass, h]
  rfl

/-! ### States that are alike -/

section States
variable {s s' : State}

theorem State.Alike.respond (r : Response) (h : s.Alike s') : (s.respond r).Alike (s'.respond r) :=
  { h with env := by simp only [State.respond, h.env] }

theorem State.Alike.emit (es : List FrameEvent) (h : s.Alike s') : (s.emit es).Alike (s'.emit es) :=
  { h with env := by simp only [State.emit, h.env] }

theorem State.Alike.take (rest : List Byte) (h : s.Alike s') : (s.take rest).Alike (s'.take rest) :=
  { h with env := by simp only [State.take, h.env] }

theorem State.Alike.withRx {r r' : RxUnit} (h : s.Alike s') (hr : r.Alike r') :
    State.Alike { s with rx := r } { s' with rx := r' } := { h with rx := hr }

theorem State.Alike.scanned {q q' : ScanResult} (h : s.Alike s') (hq : q.Alike q') :
    (s.scanned q).Alike (s'.scanned q') := by
  simp only [State.scanned, ← hq.outcome, ← hq.events]
  exact ((h.withRx hq.unit).emit _).respond _

theorem State.Alike.pushed (b : Byte) (h : s.Alike s') :
    State.Alike
      (State.respond (.status (s.rx.push s.params.rxCap b).stat) { s with rx := s.rx.push s.params.rxCap b })
      (State.respond (.status (s'.rx.push s'.params.rxCap b).stat) { s' with rx := s'.rx.push s'.params.rxCap b }) := by
  have hpush : (s.rx.push s.params.rxCap b).Alike (s'.rx.push s'.params.rxCap b) := h.params ▸ h.rx.push _ b
  rw [← hpush.stat]
  exact (h.withRx hpush).respond _

theorem State.Alike.drainPhase (h : s.Alike s') : s.drainPhase.Alike s'.drainPhase := by
  simp only [State.drainPhase, ← h.params, ← h.env]
  exact h.rx.drain _ _

theorem State.Alike.parsePhase (h : s.Alike s') : s.parsePhase.Alike s'.parsePhase := by
  simp only [State.parsePhase, ← h.params, ← h.drainPhase.unit.cnt]
  exact h.drainPhase.unit.parse _ _

theorem State.Alike.drained (h : s.Alike s') : s.drained.Alike s'.drained :=
  { h with
    env := by simp only [State.drained, h.env, h.drainPhase.rest]
    rx := h.drainPhase.unit }

theorem State.Alike.txTooLong (h : s.Alike s') : s.txTooLong.Alike s'.txTooLong :=
  State.Alike.respond _ { h with tx := h.tx.emptied .txTooLong }

theorem State.Alike.transmit (f : List Byte) (h : s.Alike s') : (s.transmit f).Alike (s'.transmit f) := by
  have hframe : (s.transmit f).tx.frame = (s'.transmit f).tx.frame := by
    rw [State.transmit_frame f s h.tx.wf, State.transmit_frame f s' h.tx.wf']
  simp only [State.transmit, ← h.env] at hframe ⊢
  exact State.Alike.respond _
    { h with
      env := rfl
      tx := ⟨Memory.wf_writeRange _ _ _ h.tx.wf, Memory.wf_writeRange _ _ _ h.tx.wf', rfl, rfl, rfl, hframe⟩ }

theorem State.Alike.dpLoad (id : Byte) (ty : DpType) (len : Half) (val : DpVal) (r : Response) (h : s.Alike s') :
    (s.dpLoad id ty len val r).Alike (s'.dpLoad id ty len val r) :=
  State.Alike.respond r { h with dp := DpUnit.Alike.refl _ }

theorem State.Alike.dpFail (h : s.Alike s') : s.dpFail.Alike s'.dpFail :=
  State.Alike.respond _ { h with dp := DpUnit.Alike.unspecified _ _ _ }

theorem State.Alike.dpRecord (id : Byte) (ty : DpType) (len : Half) (rest : List Byte) (h : s.Alike s') :
    (s.dpRecord id ty len rest).Alike (s'.dpRecord id ty len rest) := by
  unfold State.dpRecord
  split_ifs
  · exact h.dpFail
  · exact h.dpFail
  · exact h.dpLoad _ _ _ _ _

theorem State.Alike.dpDecode (bs : List Byte) (h : s.Alike s') : (s.dpDecode bs).Alike (s'.dpDecode bs) := by
  unfold State.dpDecode
  split
  · split
    · exact h.dpFail
    · exact h.dpRecord _ _ _ _
  · exact h.dpFail

/-! ### Every instruction takes states that are alike to states that are alike -/

variable {t t' : State}

theorem execReset_alike (h : s.Alike s') (ht : execReset s = .next t) (ht' : execReset s' = .next t') : t.Alike t' := by
  cases ht
  cases ht'
  exact { h with
    rx := h.rx.clear.raise .ok
    tx := h.tx.emptied .ok
    dp := DpUnit.Alike.unspecified _ _ _ }

theorem execRxPass_alike (h : s.Alike s') (ht : execRxPass s = .next t) (ht' : execRxPass s' = .next t') :
    t.Alike t' := by
  cases herr : s.drainPhase.error with
  | some st =>
    rw [execRxPass_of_error herr] at ht
    rw [execRxPass_of_error (h.drainPhase.error ▸ herr)] at ht'
    cases ht
    cases ht'
    exact h.drained.respond _
  | none =>
    rw [execRxPass_of_drained herr] at ht
    rw [execRxPass_of_drained (h.drainPhase.error ▸ herr)] at ht'
    cases ht
    cases ht'
    rw [← h.parsePhase.outcome, ← h.parsePhase.events]
    exact ((h.drained.withRx h.parsePhase.unit).emit _).respond _

theorem execTxFrame_alike (ver cmd : Byte) (p : List Byte) (h : s.Alike s') (ht : execTxFrame ver cmd p s = .next t)
    (ht' : execTxFrame ver cmd p s' = .next t') : t.Alike t' := by
  simp only [execTxFrame, ← h.params] at ht ht'
  split_ifs at ht ht'
  · cases ht
    cases ht'
    exact h.txTooLong
  · cases ht
    cases ht'
    exact h.transmit _

theorem execDpEnc_alike (h : s.Alike s') (ht : execDpEnc s = .next t) (ht' : execDpEnc s' = .next t') : t.Alike t' := by
  by_cases hv : s.dp.valid = true
  · simp only [execDpEnc, ← h.dp.eq_of_valid hv, if_pos hv] at ht ht'
    cases ht
    cases ht'
    exact State.Alike.respond _ { h with dp := DpUnit.Alike.refl _ }
  · simp only [execDpEnc, ← h.dp.valid, if_neg hv] at ht ht'
    cases ht
    cases ht'
    exact State.Alike.respond _ { h with dp := h.dp.raise .dpInvalid }

theorem execWireFrame_alike (ver cmd : Byte) (len : Half) (h : s.Alike s') (ht : execWireFrame ver cmd len s = .next t)
    (ht' : execWireFrame ver cmd len s' = .next t') : t.Alike t' := by
  simp only [execWireFrame, ← h.rx.header, ← h.params] at ht ht'
  split_ifs at ht ht'
  · cases ht
    cases ht'
    exact h.scanned (h.rx.candidate _ _ _ _)
  · cases ht
    cases ht'
    exact h

theorem exec_alike (i : Instr) (h : s.Alike s') (ht : exec i s = .next t) (ht' : exec i s' = .next t') :
    t.Alike t' := by
  cases i
  case reset => exact execReset_alike h ht ht'
  case rxPass => exact execRxPass_alike h ht ht'
  case txFrame ver cmd p => exact execTxFrame_alike ver cmd p h ht ht'
  case dpEnc => exact execDpEnc_alike h ht ht'
  case wireFrame ver cmd len => exact execWireFrame_alike ver cmd len h ht ht'
  all_goals
    cases ht
    cases ht'
  case rxReset => exact (h.withRx (h.rx.clear.raise .ok)).respond _
  case rxPush b => exact h.pushed b
  case rxScan => exact h.scanned (h.params ▸ h.rx.scan _)
  case dpDec bs => exact h.dpDecode bs
  case dpSetRaw | dpSetBool | dpSetValue | dpSetString | dpSetEnum | dpSetBitmap => exact h.dpLoad _ _ _ _ _
  case wireDpRaw | wireDpBool | wireDpValue | wireDpString | wireDpEnum | wireDpBitmap => exact h.dpRecord _ _ _ _

end States

/-- Settles O13: states that meet the invariant and look the same are alike; both are asked the same request, every
instruction completes in both, and it leaves them alike. -/
theorem unspecifiedStateIsUnobservable : Obligations.UnspecifiedStateIsUnobservable := by
  intro s s' t hs hs' hsame h
  have halike := hsame.alike hs hs'
  obtain ⟨hidle, hstep⟩ | ⟨i, rest, hreq, hrun⟩ | ⟨_, _, _, _, href⟩ | ⟨_, _, _, _, hfault⟩ := step_cases s
  · rw [hstep] at h
    cases h
    exact ⟨s', idleStepHoldsTheState s' (halike.env ▸ hidle), hsame⟩
  · obtain ⟨t', ht'⟩ := exec_completes i (s'.take rest)
    have hstep' : step s' = .next t' := by
      rw [step_of_decodeRequest s' i rest (halike.env ▸ hreq), ht']
    exact ⟨t', hstep', (exec_alike i (halike.take rest) (hrun ▸ h) ht').sameVisible⟩
  · rw [href] at h
    cases h
  · rw [hfault] at h
    cases h

end Sys2Proof.Machine
end

section
/-! PROOFS of the statements about the RX buffer's compaction and about a step's request (20_memory.md). -/
namespace Sys2Proof.Machine
open Sys2Proof

/-- Settles O20: a byte below the new `RXCNT` is one that was moved down, and the move writes no byte above it. -/
theorem dropFrontMovesTheRestDown : Obligations.DropFrontMovesTheRestDown := by
  intro r k hwf _
  have hmoved := RxUnit.dropFront_read k r hwf
  have hkept := RxUnit.dropFront_read_other k r
  exact ⟨r.dropFront_cnt k, hmoved, hkept, r.dropFront_stat k⟩

/-- Settles O4: `State.take` is the state with the request's bytes gone from the port. -/
theorem stepRunsTheRequest : Obligations.StepRunsTheRequest := by
  intro s i rest hrequest
  exact step_of_decodeRequest s i rest hrequest

end Sys2Proof.Machine
end

section
/-! PROOFS of the statements about the encoding (30_encoding.md): decode after encode, the reserved codes, the wire
patterns as the operations that meet them, `TX.DP`, and a data point's way over the link. -/
namespace Sys2Proof
open Machine

/-! ### Decode after encode (R70, R76, R80, R81) -/

/-- A request is its operation-select code and then operands that its own operand decoder reads (R80). -/
theorem decodeRequest_code (o : Op) (bs : List Byte) (x : Instr × List Byte) (h : decodeOperands o bs = some x) :
    decodeRequest (o.code :: bs) = .ok x := by
  simp only [decodeRequest, Op.ofCode_code, h]

theorem decodeOperands_be32 (id : Byte) (v : Word) (rest : List Byte) :
    decodeOperands .dpSetValue (id :: be32 v ++ rest) = some (.dpSetValue id v, rest) := by
  simp [be32, decodeOperands]

theorem decodeRequest_encode (i : Instr) (rest : List Byte) (h : i.format = .opRequest) :
    decodeRequest (encode i ++ rest) = .ok (i, rest) := by
  cases i with
  | reset => exact decodeRequest_code .reset _ _ rfl
  | rxReset => exact decodeRequest_code .rxReset _ _ rfl
  | rxPush b => exact decodeRequest_code .rxPush _ _ rfl
  | rxScan => exact decodeRequest_code .rxScan _ _ rfl
  | rxPass => exact decodeRequest_code .rxPass _ _ rfl
  | txFrame ver cmd p => exact decodeRequest_code .txFrame _ _ (by simp [decodeOperands])
  | dpSetRaw id b => exact decodeRequest_code .dpSetRaw _ _ (by simp [decodeOperands])
  | dpSetBool id t => exact decodeRequest_code .dpSetBool _ _ (by simp [decodeOperands])
  | dpSetValue id v => exact decodeRequest_code .dpSetValue _ _ (decodeOperands_be32 id v rest)
  | dpSetString id b => exact decodeRequest_code .dpSetString _ _ (by simp [decodeOperands])
  | dpSetEnum id e => exact decodeRequest_code .dpSetEnum _ _ rfl
  | dpSetBitmap id b => exact decodeRequest_code .dpSetBitmap _ _ (by simp [decodeOperands])
  | dpEnc => exact decodeRequest_code .dpEnc _ _ rfl
  | dpDec b => exact decodeRequest_code .dpDec _ _ (by simp [decodeOperands])
  | _ => cases h

theorem decodeFrame_encode (i : Instr) (rest : List Byte) (h : i.format = .frame) :
    decodeFrame (encode i ++ rest) = .ok (i, rest) := by
  cases i with
  | wireFrame ver cmd len => exact decodeFrame_frameHeader ver cmd len rest
  | _ => cases h

theorem decodeRecord_encode (i : Instr) (h : i.format = .dpRecord) : decodeRecord (encode i) = .ok (i, []) := by
  obtain ⟨ty, id, len, rest, rfl⟩ := exists_recordInstr i h
  rw [encode_recordInstr, decodeRecord_recordBytes]

/-- Settles O1, format by format. -/
theorem decodeEncodeRoundTrip : Obligations.DecodeEncodeRoundTrip := by
  intro i rest
  cases hf : i.format with
  | opRequest => exact ⟨fun _ => decodeRequest_encode i rest hf, nofun⟩
  | frame => exact ⟨fun _ => decodeFrame_encode i rest hf, nofun⟩
  | dpRecord => exact ⟨fun hne => absurd rfl hne, fun _ => decodeRecord_encode i hf⟩

/-- Settles O2, word by word. -/
theorem specWordsDecode : Obligations.SpecWordsDecode := by
  refine ⟨?_, ?_, ?_, ?_, ?_, ?_, ?_, ?_⟩ <;> decide

/-! ### Reserved operation codes (R82) -/

theorem Op.ofCode_eq_none_iff (b : Byte) : Op.ofCode b = none ↔ b ∉ Op.all.map Op.code := by
  simp only [Op.ofCode, List.find?_eq_none, List.mem_map, not_exists, not_and, beq_iff_eq]

theorem step_of_reserved (s : State) (op : Byte) (bs : List Byte) (hport : s.env.port = op :: bs)
    (h : Op.ofCode op = none) : step s = .refused (.reservedOp op) := by
  simp only [step, hport, decodeRequest, h]

/-- Settles O3: the fourteen codes are those of the table, and a code the table does not have is no operation. -/
theorem reservedOperationIsRefused : Obligations.ReservedOperationIsRefused := by
  intro s op bs hport hreserved
  exact step_of_reserved s op bs hport ((Op.ofCode_eq_none_iff op).mpr hreserved)

end Sys2Proof

namespace Sys2Proof.Machine
open Sys2Proof

/-! ### Wire patterns are the operations that meet them (R85) -/

/-- The header the RX unit holds is this one exactly when six bytes are held and these lead the buffer. -/
theorem RxUnit.header_eq_iff (ver cmd : Byte) (len : Half) (r : RxUnit) :
    r.header = frameHeader ver cmd len ↔ 6 ≤ r.cnt ∧ Memory.readRange r.buf 0 6 = frameHeader ver cmd len := by
  unfold RxUnit.header
  split
  · rename_i hshort
    have hcnt : ¬ 6 ≤ r.cnt := Nat.not_le.mpr hshort
    simp [hcnt, frameHeader]
  · rename_i hlong
    have hcnt : 6 ≤ r.cnt := Nat.not_lt.mp hlong
    simp [hcnt]

theorem exec_wireFrame_of_header (ver cmd : Byte) (len : Half) (s : State) (h : s.rx.header = frameHeader ver cmd len) :
    exec (.wireFrame ver cmd len) s = exec .rxScan s := by
  simp only [exec, execWireFrame, execRxScan, if_pos h, RxUnit.scan_of_header s.params ver cmd len s.rx h]

theorem exec_wireFrame_of_no_header (ver cmd : Byte) (len : Half) (s : State)
    (h : s.rx.header ≠ frameHeader ver cmd len) : exec (.wireFrame ver cmd len) s = .next s :=
  if_neg h

/-- Settles O26: the two clauses are the two sides of whether the header leads the buffer. -/
theorem wireFrameIsTheScanOfItsCandidate : Obligations.WireFrameIsTheScanOfItsCandidate := by
  intro s ver cmd len
  have hiff := RxUnit.header_eq_iff ver cmd len s.rx
  refine ⟨fun hcnt hlead => ?_, fun hnot => ?_⟩
  · exact exec_wireFrame_of_header ver cmd len s (hiff.mpr ⟨hcnt, hlead⟩)
  · refine exec_wireFrame_of_no_header ver cmd len s fun hheader => ?_
    obtain ⟨hcnt, hlead⟩ := hiff.mp hheader
    exact hnot.elim (Nat.not_lt.mpr hcnt) (· hlead)

/-- Settles O50: both sides run the same record (R173). -/
theorem wireRecordsAreDecodedRecords : Obligations.WireRecordsAreDecodedRecords := by
  intro i s hf
  obtain ⟨ty, id, len, rest, rfl⟩ := exists_recordInstr i hf
  rw [exec_recordInstr, encode_recordInstr]
  simp only [exec, execDpDec, State.dpDecode_recordBytes]

/-- An operand that decodes as a record pattern is that pattern's encoding. -/
theorem encode_of_decodeRecord (bs rest : List Byte) (i : Instr) (h : decodeRecord bs = .ok (i, rest)) :
    i.format = .dpRecord ∧ encode i = bs := by
  obtain ⟨id, ty, len, r, rfl, rfl⟩ := recordBytes_of_decodeRecord bs rest i h
  exact ⟨by cases ty <;> rfl, encode_recordInstr ty id len r⟩

/-- Settles O5: a step is the requested operation on the state with the request taken, and there the operation is the
pattern it meets. -/
theorem stepRunsTheWirePattern : Obligations.StepRunsTheWirePattern := by
  refine ⟨fun s rest ver cmd len hreq hcnt hlead => ?_, fun s rest bs i hreq hrecord => ?_⟩
  · rw [step_of_decodeRequest s _ rest hreq]
    exact ((wireFrameIsTheScanOfItsCandidate (s.take rest) ver cmd len).1 hcnt hlead).symm
  · obtain ⟨hf, rfl⟩ := encode_of_decodeRecord bs [] i hrecord
    rw [step_of_decodeRequest s _ rest hreq]
    exact (wireRecordsAreDecodedRecords i (s.take rest) hf).symm

/-- Settles O49: the pattern is its record, which loads what the record's type reads of its payload. -/
theorem wireRecordsLoadTheDataPoint : Obligations.WireRecordsLoadTheDataPoint := by
  intro s id len rest p hle hrest hp i ty val h
  have hload := State.dpRecord_loads s id len rest p ty val hle hrest hp
  have hi : i = recordInstr ty id len rest := by
    obtain ⟨rfl, rfl, _⟩ | ⟨rfl, rfl, _⟩ | ⟨rfl, rfl, _⟩ | ⟨rfl, rfl, _⟩ | ⟨rfl, rfl, _⟩ | ⟨rfl, rfl, _⟩ := h <;> rfl
  have hloaded := hload <| h.imp And.right <| Or.imp And.right <| Or.imp And.right <| Or.imp And.right <|
    Or.imp And.right And.right
  rw [hi, exec_recordInstr, hloaded]
  rfl

/-! ### `TX.DP` (R84) -/

theorem after_of_exec {i : Instr} {s t : State} (h : exec i s = .next t) : after i s = t := by
  simp only [after, h]

theorem exec_eq_next_after (i : Instr) (s : State) : exec i s = .next (after i s) := by
  obtain ⟨t, h⟩ := exec_completes i s
  rw [after_of_exec h, h]

/-- The record of the DP register, as `DP.ENC` returns it (R170). -/
def DpUnit.record (d : DpUnit) : List Byte := enc d.id d.type d.len d.val

/-- What `DP.ENC` leaves when the register holds a data point (R171). -/
def State.encoded (s : State) : State := State.respond (.encoded s.dp.record) { s with dp := s.dp.raise .ok }

theorem exec_dpEnc_of_valid {s : State} (h : s.dp.valid = true) : exec .dpEnc s = .next s.encoded :=
  if_pos h

theorem exec_dpEnc_of_invalid {s : State} (h : s.dp.valid = false) :
    exec .dpEnc s = .next (State.respond (.status .dpInvalid) { s with dp := s.dp.raise .dpInvalid }) :=
  if_neg (Bool.eq_false_iff.mp h)

theorem txDp_of_encoded {s t : State} {e : List Byte} (ver cmd : Byte) (h : exec .dpEnc s = .next t)
    (hres : t.env.responses = s.env.responses ++ [.encoded e]) : txDp ver cmd s = after (.txFrame ver cmd e) t := by
  simp only [txDp, after_of_exec h, hres, List.getLast?_concat]

theorem txDp_of_invalid {s : State} (ver cmd : Byte) (h : s.dp.valid = false) :
    txDp ver cmd s = State.respond (.status .dpInvalid) { s with dp := s.dp.raise .dpInvalid } := by
  simp only [txDp, after_of_exec (exec_dpEnc_of_invalid h), State.respond_env_responses, List.getLast?_concat]

/-- Settles O54: `TX.DP` goes on to `TX.FRAME` exactly when the last response is a record. -/
theorem txDpSendsTheRecord : Obligations.TxDpSendsTheRecord := by
  refine fun s ver cmd => ⟨fun hinvalid => txDp_of_invalid ver cmd hinvalid, fun e t henc hres => ?_⟩
  rw [txDp_of_encoded ver cmd henc hres]
  exact exec_eq_next_after _ t

/-! ### The record of a data point a setter stored (R39, R177) -/

/-- The payload the encoder emits is as long as `DP.len` says. -/
theorem DpUnit.encPayload_length {d : DpUnit} (h : d.setterForm) : (encPayload d.val).length = d.len.toNat := by
  obtain ⟨id, ty, len, val, valid, stat⟩ := d
  obtain ⟨_, ⟨_, hfits, hlen, _⟩, hemitted, _⟩ := h
  simp only at hfits hlen hemitted ⊢
  cases val with
  | raw b => exact of_decide_eq_true hlen
  | bool t =>
    rw [hemitted]
    cases t <;> rfl
  | value v =>
    rw [hemitted]
    rfl
  | str b =>
    have hle : b.length ≤ 63 := by
      simp only [DpVal.fits, Bool.and_eq_true, decide_eq_true_eq] at hfits
      exact hfits.1
    rw [hemitted]
    exact (toNat_len_of_le (hle.trans (by decide))).symm
  | enum e =>
    rw [hemitted]
    rfl
  | bitmap b => exact of_decide_eq_true hlen

theorem DpUnit.record_eq {d : DpUnit} (h : d.setterForm) :
    d.record = recordBytes d.id d.type d.len (encPayload d.val) := by
  obtain ⟨_, _, hemitted, _⟩ := h
  rw [DpUnit.record, enc, ← hemitted]

theorem DpUnit.record_length {d : DpUnit} (h : d.setterForm) : d.record.length = 4 + d.len.toNat := by
  rw [DpUnit.record_eq h, recordBytes_length, DpUnit.encPayload_length h]

/-- Decoding the record on any state loads the data point it was encoded from (R177). -/
theorem State.dpDecode_record {d : DpUnit} (h : d.setterForm) (w : State) :
    w.dpDecode d.record = w.dpLoad d.id d.type d.len d.val (.decoded d.record.length) := by
  have hlen := DpUnit.encPayload_length h
  rw [DpUnit.record_length h, DpUnit.record_eq h, State.dpDecode_recordBytes]
  obtain ⟨_, ⟨htype, hfits, _, hle⟩, _, _⟩ := h
  refine State.dpRecord_loads w d.id d.len _ (encPayload d.val) d.type d.val hle hlen.ge
    (List.take_of_length_le hlen.le).symm ?_
  rw [← htype]
  generalize d.val = val at hfits
  cases val with
  | raw b => simp [DpVal.type, encPayload]
  | bool t => cases t <;> simp [DpVal.type, encPayload]
  | value v => simp [DpVal.type, encPayload, be32]
  | str b =>
    simp only [DpVal.fits, Bool.and_eq_true, decide_eq_true_eq] at hfits
    obtain ⟨hle63, hnul⟩ := hfits
    simp [DpVal.type, encPayload, List.take_of_length_le hle63, untilNul_of_no_nul b hnul]
  | enum e => simp [DpVal.type, encPayload]
  | bitmap b => simp [DpVal.type, encPayload]

/-! ### A frame on the receiving side (R102, R106) -/

/-- The frame-out event of an assembled frame. -/
def frameEvent (ver cmd : Byte) (p : List Byte) : FrameEvent :=
  { ver := ver, cmd := cmd, len := BitVec.ofNat 16 p.length, payload := p }

/-- With fewer than six bytes held the parse loop waits for a header at once. -/
theorem RxUnit.parse_short (P : Params) (r : RxUnit) (h : r.cnt < 6) :
    r.parse P r.cnt = { unit := r.raise .ok, outcome := .waitHdr, events := [] } := by
  rw [RxUnit.parse_unroll, RxUnit.scan_short P r h]
  rfl

/-- The parse loop on a buffer led by a frame that fits it: the frame's event, and then the loop on the bytes behind. -/
theorem RxUnit.parse_frame (P : Params) (r : RxUnit) (ver cmd : Byte) (p more : List Byte)
    (hw : Memory.wf r.buf = true) (hp : p.length ≤ 65535) (hcap : 7 + p.length ≤ P.rxCap)
    (hheld : r.held = frameBytes ver cmd p ++ more) :
    ∃ r' : RxUnit, Memory.wf r'.buf = true ∧ r'.held = more ∧
      r.parse P r.cnt = { r'.parse P r'.cnt with events := frameEvent ver cmd p :: (r'.parse P r'.cnt).events } := by
  have hscan := RxUnit.scan_shows P hw
  rw [hheld, listScan_frame P ver cmd p more hp hcap] at hscan
  refine ⟨(r.scan P).unit, hscan.wf, hscan.left, ?_⟩
  rw [RxUnit.parse_unroll, hscan.outcome, hscan.events]
  rfl

/-- A pass of an empty receiver over the bytes of one frame that fits it. -/
theorem exec_rxPass_frame (s : State) (ver cmd : Byte) (p : List Byte) (hw : Memory.wf s.rx.buf = true)
    (hempty : s.rx.cnt = 0) (hp : p.length ≤ 65535) (hcap : 7 + p.length ≤ s.params.rxCap)
    (hin : s.env.rxIn = (frameBytes ver cmd p).map .byte) :
    ∃ u, exec .rxPass s = .next u ∧ u.env.events = s.env.events ++ [frameEvent ver cmd p] ∧
      u.rx.cnt = 0 ∧ u.rx.stat = .ok ∧ u.dp = s.dp := by
  have hdrain := RxUnit.drain_bytes s.params.rxCap (frameBytes ver cmd p) s.rx hw (by simpa [hempty] using hcap)
  rw [← hin] at hdrain
  obtain ⟨herror, _, hheld, hwf⟩ := hdrain
  have hnone : s.rx.held = [] := List.length_eq_zero_iff.mp (s.rx.held_length.trans hempty)
  rw [hnone, List.nil_append, ← List.append_nil (frameBytes ver cmd p)] at hheld
  obtain ⟨r, _, hleft, hparse⟩ := RxUnit.parse_frame s.params s.drainPhase.unit ver cmd p [] hwf hp hcap hheld
  have hcnt : r.cnt = 0 := by rw [← r.held_length, hleft, List.length_nil]
  rw [RxUnit.parse_short s.params r (by omega)] at hparse
  refine ⟨_, execRxPass_of_drained herror, ?_⟩
  simp only [State.parsePhase, hparse]
  exact ⟨rfl, hcnt, rfl, rfl⟩

/-! ### The whole path (R84, R133, program P1) -/

/-- `TX.DP` of a data point whose record fits, over a link that accepts every byte (R84, R131). -/
theorem txDp_transmits (s : State) (ver cmd : Byte) (hvalid : s.dp.valid = true)
    (hfit : s.dp.record.length + 7 ≤ s.params.txCap) (hlink : WriteAnswer.error ∉ s.env.txAns) :
    (txDp ver cmd s).params = s.params ∧ (txDp ver cmd s).rx = s.rx ∧
    (txDp ver cmd s).env.events = s.env.events ∧
    (txDp ver cmd s).env.txlog = s.env.txlog ++ frameBytes ver cmd s.dp.record := by
  have hsend : exec (.txFrame ver cmd s.dp.record) s.encoded =
      .next (s.encoded.transmit (frameBytes ver cmd s.dp.record)) := if_neg (Nat.not_lt.mpr hfit)
  have hall := send_all (frameBytes ver cmd s.dp.record) s.encoded.env.txAns fun h => hlink (List.mem_of_mem_take h)
  obtain ⟨hparams, hrx, _, _, _, _, hevents, htxlog, _⟩ :=
    State.transmit_frame_other (frameBytes ver cmd s.dp.record) s.encoded
  rw [txDp_of_encoded ver cmd (exec_dpEnc_of_valid hvalid) rfl, after_of_exec hsend]
  rw [hall] at htxlog
  exact ⟨hparams, hrx, hevents, htxlog⟩

theorem unitOf_setter {i : Instr}
    (h : (∃ id b, i = .dpSetRaw id b ∨ i = .dpSetString id b ∨ i = .dpSetBitmap id b) ∨
      (∃ id x, i = .dpSetBool id x) ∨ (∃ id v, i = .dpSetValue id v) ∨ (∃ id e, i = .dpSetEnum id e)) :
    unitOf i = .dp := by
  obtain ⟨_, _, rfl | rfl | rfl⟩ | ⟨_, _, rfl⟩ | ⟨_, _, rfl⟩ | ⟨_, _, rfl⟩ := h <;> rfl

/-- Settles O55: the setter leaves a data point of setter form and nothing else changed; its record, at most 68 bytes,
goes out in one frame; the pass delivers that frame's payload; and the payload decodes to the data point. -/
theorem dataPointSurvivesTheLink : Obligations.DataPointSurvivesTheLink := by
  intro i s a d ver cmd hsetter hset hw hempty _ hrxCap htxCap hlink
  obtain ⟨hform, hstat⟩ := settersEstablishTheInvariant i s a hsetter hset
  obtain ⟨_, effect⟩ := exec_dp i s a (unitOf_setter hsetter) hset
  have hlen := DpUnit.record_length hform
  have hdecode := State.dpDecode_record hform
  obtain ⟨hvalid, ⟨_, _, _, hle⟩, _, _⟩ := hform
  have htxlog : a.env.txlog = s.env.txlog := by rw [effect.env_eq]
  have htxAns : a.env.txAns = s.env.txAns := by rw [effect.env_eq]
  obtain ⟨hparams, hrx, hevents, hsent⟩ := txDp_transmits a ver cmd hvalid
    (by rw [effect.params_eq]; omega) (htxAns ▸ hlink)
  generalize txDp ver cmd a = b at hparams hrx hevents hsent ⊢
  rw [effect.params_eq] at hparams
  rw [effect.rx_eq] at hrx
  rw [effect.events_eq] at hevents
  rw [htxlog] at hsent
  rw [← hrx] at hw hempty
  rw [← hparams] at hrxCap
  rw [hsent, List.drop_left, ← hevents]
  obtain ⟨u, hpass, hemit, hcnt, hok, hdp⟩ := exec_rxPass_frame
    (wire ((frameBytes ver cmd a.dp.record).map .byte) { b with dp := d }) ver cmd a.dp.record hw hempty (by omega)
    (le_trans (by omega) hrxCap) rfl
  refine ⟨frameEvent ver cmd a.dp.record, u, u.dpDecode a.dp.record, hpass, hemit, rfl, rfl, hcnt, hok, hdp, rfl, ?_⟩
  rw [hdecode u]
  refine ⟨?_, rfl⟩
  rw [State.dpLoad_dp, ← hvalid, ← hstat]

end Sys2Proof.Machine
end

section
/-! PROOFS of the statements about `RX.RESET`, `RX.PUSH` and `RX.SCAN` (40_rx_frame_parser.md): one equation of a scan
per outcome of R103, and the statements read off them. -/
namespace Sys2Proof.Machine
open Sys2Proof

/-! ### `RX.RESET` and `RX.PUSH` (R100, R101) -/

/-- Settles O18: the operation is written as its rule has it. -/
theorem rxResetEmptiesTheBuffer : Obligations.RxResetEmptiesTheBuffer := fun _ => rfl

/-- Settles O19, by whether the buffer has room. -/
theorem rxPushAppendsOrOverflows : Obligations.RxPushAppendsOrOverflows := by
  refine fun s b hw => ⟨fun hfull => ?_, fun hroom => ?_⟩
  · simp only [exec, execRxPush, RxUnit.push_full s.params.rxCap b s.rx hfull.ge]
    rfl
  · simp only [exec, execRxPush, RxUnit.push_room s.params.rxCap b s.rx hroom]
    refine ⟨_, rfl, rfl, rfl, rfl, ?_, fun a ha => ?_⟩
    · exact Memory.read_write_same s.rx.buf s.rx.cnt b hw
    · exact Memory.read_write_other s.rx.buf s.rx.cnt a b ha

/-! ### A scan, outcome by outcome (R102, R103) -/

theorem RxUnit.candidate_tooLong (P : Params) (ver cmd : Byte) (len : Half) (r : RxUnit)
    (h : P.rxCap < 7 + len.toNat) :
    r.candidate P ver cmd len = { unit := r.clear.raise .malformedFrame, outcome := .tooLong, events := [] } := by
  rw [RxUnit.candidate, frameLen_eq, if_pos h]

theorem RxUnit.candidate_waitBody (P : Params) (ver cmd : Byte) (len : Half) (r : RxUnit)
    (hfit : 7 + len.toNat ≤ P.rxCap) (h : r.cnt < 7 + len.toNat) :
    r.candidate P ver cmd len = { unit := r.raise .ok, outcome := .waitBody, events := [] } := by
  rw [RxUnit.candidate, frameLen_eq, if_neg (Nat.not_lt.mpr hfit), if_pos h]

theorem RxUnit.candidate_badSum (P : Params) (ver cmd : Byte) (len : Half) (r : RxUnit)
    (hfit : 7 + len.toNat ≤ P.rxCap) (hcnt : 7 + len.toNat ≤ r.cnt)
    (h : sum8 (Memory.readRange r.buf 0 (6 + len.toNat)) ≠ Memory.read r.buf (6 + len.toNat)) :
    r.candidate P ver cmd len = { unit := r.badSum P, outcome := .badSum, events := [] } := by
  rw [RxUnit.candidate, frameLen_eq, if_neg (Nat.not_lt.mpr hfit), if_neg (Nat.not_lt.mpr hcnt), if_pos h]

theorem RxUnit.candidate_dispatch (P : Params) (ver cmd : Byte) (len : Half) (r : RxUnit)
    (hfit : 7 + len.toNat ≤ P.rxCap) (hcnt : 7 + len.toNat ≤ r.cnt)
    (h : sum8 (Memory.readRange r.buf 0 (6 + len.toNat)) = Memory.read r.buf (6 + len.toNat)) :
    r.candidate P ver cmd len =
      { unit := (r.dropFront (7 + len.toNat)).raise .ok
        outcome := .dispatch
        events := [{ ver := ver, cmd := cmd, len := len, payload := Memory.readRange r.buf 6 len.toNat }] } := by
  rw [RxUnit.candidate, frameLen_eq, if_neg (Nat.not_lt.mpr hfit), if_neg (Nat.not_lt.mpr hcnt), if_neg (not_not.mpr h)]

/-- The checksum test of R72 on the bytes is the model's on their sum as a byte. -/
theorem sum8_eq_iff (bs : List Byte) (b : Byte) : sum8 bs = b ↔ (bs.map BitVec.toNat).sum % 256 = b.toNat := by
  rw [← BitVec.toNat_inj, sum8_toNat]

/-- A sync pair starts at index `k` of the buffer (R73). -/
def RxUnit.syncAt (r : RxUnit) (k : Nat) : Prop := Memory.read r.buf k = 0x55 ∧ Memory.read r.buf (k + 1) = 0xAA

theorem RxUnit.scan_not_syncAt (P : Params) (r : RxUnit) (h6 : 6 ≤ r.cnt) (h : ¬ r.syncAt 0) :
    r.scan P = { unit := (r.dropFront 1).raise .ok, outcome := .drop, events := [] } :=
  RxUnit.scan_unsynced P r h6 (not_and_or.mp h)

theorem exec_rxScan (s : State) : exec .rxScan s = .next (s.scanned (s.rx.scan s.params)) := rfl

theorem exec_rxScan_of_scan {s : State} {q : ScanResult} (h : s.rx.scan s.params = q) :
    exec .rxScan s = .next (s.scanned q) := by
  rw [exec_rxScan, h]

/-- A scan that reports nothing leaves the events as they were. -/
theorem State.scanned_of_no_events (unit : RxUnit) (o : ScanOutcome) (s : State) :
    s.scanned { unit := unit, outcome := o, events := [] } = State.respond (.scan o o.status) { s with rx := unit } := by
  simp only [State.scanned, State.emit, List.append_nil]

/-- Settles O21: the two outcomes that wait only set `RXSTAT`. -/
theorem rxScanWaitsForMoreBytes : Obligations.RxScanWaitsForMoreBytes := by
  refine fun s => ⟨fun hshort => ?_, fun len h6 h0 h1 hlen hfit hcnt => ?_⟩
  · rw [exec_rxScan_of_scan (RxUnit.scan_short s.params s.rx hshort), State.scanned_of_no_events]
    rfl
  · have hscan := RxUnit.scan_synced s.params s.rx len h6 h0 h1 hlen
    rw [RxUnit.candidate_waitBody _ _ _ _ _ hfit hcnt] at hscan
    rw [exec_rxScan_of_scan hscan, State.scanned_of_no_events]
    rfl

/-- Settles O22: the unit loses its oldest byte by the compaction of R63. -/
theorem rxScanDropsOneByteOutOfSync : Obligations.RxScanDropsOneByteOutOfSync := by
  intro s hw h6 hsync
  obtain ⟨hcnt, hmoved, hkept, _⟩ := dropFrontMovesTheRestDown s.rx 1 hw (by omega)
  refine ⟨_, exec_rxScan_of_scan (RxUnit.scan_unsynced s.params s.rx h6 hsync), ?_⟩
  rw [State.scanned_of_no_events]
  exact ⟨rfl, hcnt, rfl, hmoved, hkept⟩

/-- Settles O23: the capacity is tested before completeness and checksum. -/
theorem rxScanRejectsAFrameThatCannotFit : Obligations.RxScanRejectsAFrameThatCannotFit := by
  intro s len h6 h0 h1 hlen hlong
  have hscan := RxUnit.scan_synced s.params s.rx len h6 h0 h1 hlen
  rw [RxUnit.candidate_tooLong _ _ _ _ _ hlong] at hscan
  rw [exec_rxScan_of_scan hscan, State.scanned_of_no_events]
  rfl

theorem RxUnit.badSum_hold {P : Params} (h : P.csumPolicy = .hold) (r : RxUnit) :
    r.badSum P = r.raise .checksumError := by
  simp only [RxUnit.badSum, h]

theorem RxUnit.badSum_drop1 {P : Params} (h : P.csumPolicy = .drop1) (r : RxUnit) :
    r.badSum P = (r.dropFront 1).raise .checksumError := by
  simp only [RxUnit.badSum, h]

/-- Settles O24: the scan is a mismatch with no event, and the unit is what `CSUM_POLICY` makes of it. -/
theorem rxScanReportsAChecksumMismatch : Obligations.RxScanReportsAChecksumMismatch := by
  intro s len hw h0 h1 hlen hfit hcnt hsum
  have hscan := RxUnit.scan_synced s.params s.rx len (by omega) h0 h1 hlen
  rw [RxUnit.candidate_badSum _ _ _ _ _ hfit hcnt (mt (sum8_eq_iff _ _).mp hsum)] at hscan
  obtain ⟨hone, hmoved, hkept, _⟩ := dropFrontMovesTheRestDown s.rx 1 hw (by omega)
  refine ⟨_, exec_rxScan_of_scan hscan, ?_⟩
  rw [State.scanned_of_no_events]
  refine ⟨rfl, fun hhold => RxUnit.badSum_hold hhold s.rx, fun hdrop => ?_⟩
  rw [State.respond_rx, RxUnit.badSum_drop1 hdrop]
  exact ⟨hone, rfl, hmoved, hkept⟩

/-- Six bytes held that start with the sync sequence are the header of the fields they hold (R70). -/
theorem RxUnit.header_of_synced (r : RxUnit) (len : Half) (h6 : 6 ≤ r.cnt) (h0 : Memory.read r.buf 0 = 0x55)
    (h1 : Memory.read r.buf 1 = 0xAA) (hlen : len = be16 (Memory.read r.buf 4) (Memory.read r.buf 5)) :
    r.header = frameHeader (Memory.read r.buf 2) (Memory.read r.buf 3) len := by
  refine (RxUnit.header_eq_iff _ _ _ r).mpr ⟨h6, ?_⟩
  simp only [Memory.readRange, frameHeader, hlen, hi8_be16, lo8_be16, h0, h1]

/-- Settles O25: the scan removes the frame by the compaction of R63, and `WIRE.FRAME` of the header it meets is that
scan. -/
theorem rxScanDispatchesAValidFrame : Obligations.RxScanDispatchesAValidFrame := by
  intro s len hw h0 h1 hlen hfit hcnt hsum
  have h6 : 6 ≤ s.rx.cnt := by omega
  have hscan := RxUnit.scan_synced s.params s.rx len h6 h0 h1 hlen
  rw [RxUnit.candidate_dispatch _ _ _ _ _ hfit hcnt ((sum8_eq_iff _ _).mpr hsum)] at hscan
  have hwire := exec_wireFrame_of_header _ _ len s (RxUnit.header_of_synced s.rx len h6 h0 h1 hlen)
  obtain ⟨hleft, hmoved, hkept, _⟩ := dropFrontMovesTheRestDown s.rx (7 + len.toNat) hw hcnt
  exact ⟨_, exec_rxScan_of_scan hscan, hwire.trans (exec_rxScan_of_scan hscan), rfl, hleft, rfl, hmoved, hkept⟩

/-- The event a scan reports, if it reports one: the candidate with the given header (R26, R102). -/
theorem RxUnit.candidate_events (P : Params) (ver cmd : Byte) (len : Half) (r : RxUnit) :
    (r.candidate P ver cmd len).events = [] ∨
    (r.candidate P ver cmd len).events =
      [{ ver := ver, cmd := cmd, len := len, payload := Memory.readRange r.buf 6 len.toNat }] := by
  unfold RxUnit.candidate
  split_ifs
  · exact .inl rfl
  · exact .inl rfl
  · exact .inl rfl
  · exact .inr rfl

/-- A scan reports nothing, or the candidate in a buffer that starts with the sync sequence (R105 (d)). -/
theorem RxUnit.scan_events (P : Params) (r : RxUnit) :
    (r.scan P).events = [] ∨
    (6 ≤ r.cnt ∧ Memory.read r.buf 0 = 0x55 ∧ Memory.read r.buf 1 = 0xAA ∧
      (r.scan P).events =
        [{ ver := Memory.read r.buf 2, cmd := Memory.read r.buf 3
           len := be16 (Memory.read r.buf 4) (Memory.read r.buf 5)
           payload := Memory.readRange r.buf 6 (be16 (Memory.read r.buf 4) (Memory.read r.buf 5)).toNat }]) := by
  by_cases h6 : 6 ≤ r.cnt
  · by_cases hsync : r.syncAt 0
    · obtain ⟨h0, h1⟩ := hsync
      rw [RxUnit.scan_synced P r _ h6 h0 h1 rfl]
      exact (RxUnit.candidate_events P _ _ _ r).imp id fun h => ⟨h6, h0, h1, h⟩
    · rw [RxUnit.scan_not_syncAt P r h6 hsync]
      exact .inl rfl
  · rw [RxUnit.scan_short P r (Nat.lt_of_not_le h6)]
    exact .inl rfl

/-- Settles O28: `WIRE.FRAME` does nothing or is the scan, and a scan that reports something met a synchronised
buffer. -/
theorem noFrameFromAnUnsyncedBuffer : Obligations.NoFrameFromAnUnsyncedBuffer := by
  intro s t i hi ht hne
  have hscan : exec .rxScan s = .next t := by
    obtain rfl | ⟨ver, cmd, len, rfl⟩ := hi
    · exact ht
    · by_cases hlead : s.rx.header = frameHeader ver cmd len
      · rw [← exec_wireFrame_of_header ver cmd len s hlead, ht]
      · rw [exec_wireFrame_of_no_header ver cmd len s hlead] at ht
        cases ht
        exact absurd rfl hne
  cases hscan
  obtain hnone | ⟨h6, h0, h1, hone⟩ := RxUnit.scan_events s.params s.rx
  · rw [State.scanned_env_events, hnone, List.append_nil] at hne
    exact absurd rfl hne
  · exact ⟨h6, h0, h1, by rw [State.scanned_env_events, hone]⟩

/-! ### `RX.DRAIN` ends (R84, R105) -/

theorem ScanOutcome.ends_iff (o : ScanOutcome) :
    o.continues = false ↔ o = .waitHdr ∨ o = .waitBody ∨ o = .badSum ∨ o = .tooLong := by
  cases o <;> decide

theorem getLast?_after_rxScan (s : State) :
    (after .rxScan s).env.responses.getLast? =
      some (.scan (s.rx.scan s.params).outcome (s.rx.scan s.params).outcome.status) := by
  rw [after_rxScan, State.scanned_env_responses, List.getLast?_concat]

/-- With as many scans as bytes held, and one more, the last one ends the loop: every scan before it removed a byte. -/
theorem rxScans_ends (n : Nat) (s : State) (h : s.rx.cnt ≤ n) :
    ∃ o : ScanOutcome, (rxScans n s).env.responses.getLast? = some (.scan o o.status) ∧ o.continues = false := by
  induction n generalizing s with
  | zero =>
    have hend : (s.rx.scan s.params).outcome.continues = false := by
      refine Bool.eq_false_iff.mpr fun hgo => ?_
      have := RxUnit.scan_progress s.params s.rx hgo
      omega
    exact ⟨_, getLast?_after_rxScan s, hend⟩
  | succ n ih =>
    rw [rxScans, getLast?_after_rxScan]
    by_cases hgo : (s.rx.scan s.params).outcome.continues = true
    · have hless : (after .rxScan s).rx.cnt < s.rx.cnt := RxUnit.scan_progress s.params s.rx hgo
      rw [scanContinues, if_pos hgo]
      exact ih (after .rxScan s) (by omega)
    · rw [scanContinues, if_neg hgo]
      exact ⟨_, getLast?_after_rxScan s, Bool.eq_false_iff.mpr hgo⟩

/-- Settles O27: `RX.DRAIN` scans at most as often as there are bytes held, and once more. -/
theorem repeatedScanEnds : Obligations.RepeatedScanEnds := by
  intro s
  obtain ⟨o, hlast, hend⟩ := rxScans_ends s.rx.cnt s (Nat.le_refl _)
  exact ⟨o, o.status, hlast, (ScanOutcome.ends_iff o).mp hend⟩

/-! ### One changed byte (R108) -/

/-- Change one byte of bytes that end in their checksum, and they no longer do. -/
theorem sum8_set_ne (f : List Byte) (n k : Nat) (x : Byte) (hlen : f.length = n + 1) (hk : k < n + 1)
    (hsum : sum8 (f.take n) = f.getD n 0) (hx : x ≠ f.getD k 0) :
    sum8 ((f.set k x).take n) ≠ (f.set k x).getD n 0 := by
  rw [List.take_set, List.getD_eq_getElem?_getD]
  obtain hlt | rfl := Nat.lt_succ_iff_lt_or_eq.mp hk
  · have hget : (f.take n)[k]'(by rw [List.length_take]; omega) = f.getD k 0 := by
      rw [List.getElem_take, List.getD_eq_getElem _ _ (by omega)]
    rw [sum8_set _ _ _ (by rw [List.length_take]; omega), hget, hsum, List.getElem?_set_ne (Nat.ne_of_lt hlt),
      ← List.getD_eq_getElem?_getD]
    bv_omega
  · rw [List.set_eq_of_length_le (by rw [List.length_take]; omega), hsum,
      List.getElem?_set_self (by omega)]
    exact hx.symm

/-- A byte of a buffer is the byte at its index in what a read of the range from 0 gives. -/
theorem Memory.read_of_readRange {m : Memory} {n : Nat} {bs : List Byte} (h : Memory.readRange m 0 n = bs) {i : Nat}
    (hi : i < n) : Memory.read m i = bs.getD i 0 := by
  subst h
  rw [List.getD_eq_getElem _ _ (by rw [Memory.readRange_length]; exact hi), Memory.readRange_getElem, Nat.zero_add]

section ChangedByte
variable {r : RxUnit} {ver cmd x : Byte} {p : List Byte} {k : Nat} (P : Params)
  (hbytes : Memory.readRange r.buf 0 (7 + p.length) = (frameBytes ver cmd p).set k x)
include hbytes

theorem RxUnit.read_of_changed_byte (hk : k < 7 + p.length) : Memory.read r.buf k = x := by
  rw [Memory.read_of_readRange hbytes hk, List.getD_eq_getElem?_getD,
    List.getElem?_set_self (by rw [frameBytes_length]; exact hk)]
  rfl

theorem RxUnit.read_of_unchanged_byte {i : Nat} (hi : i < 7 + p.length) (hne : k ≠ i) :
    Memory.read r.buf i = (frameBytes ver cmd p).getD i 0 := by
  rw [Memory.read_of_readRange hbytes hi, List.getD_eq_getElem?_getD, List.getElem?_set_ne hne,
    ← List.getD_eq_getElem?_getD]

/-- A changed sync byte leaves no sync pair at the front. -/
theorem RxUnit.scan_of_changed_sync (hcnt : 7 + p.length ≤ r.cnt) (hx : x ≠ (frameBytes ver cmd p).getD k 0)
    (hk : k = 0 ∨ k = 1) : r.scan P = { unit := (r.dropFront 1).raise .ok, outcome := .drop, events := [] } := by
  have hread := RxUnit.read_of_changed_byte hbytes (by omega)
  refine RxUnit.scan_not_syncAt P r (by omega) ?_
  rintro ⟨h0, h1⟩
  obtain rfl | rfl := hk
  · exact hx (hread.symm.trans h0)
  · exact hx (hread.symm.trans h1)

/-- A change outside the sync and the length bytes leaves a candidate of the same length, whose checksum fails. -/
theorem RxUnit.scan_of_changed_body (hcap : P.rxCap ≤ 65542) (hfit : 7 + p.length ≤ P.rxCap)
    (hcnt : 7 + p.length ≤ r.cnt) (hlt : k < 7 + p.length) (hx : x ≠ (frameBytes ver cmd p).getD k 0)
    (hk : k = 2 ∨ k = 3 ∨ 6 ≤ k) : r.scan P = { unit := r.badSum P, outcome := .badSum, events := [] } := by
  have hlen : (BitVec.ofNat 16 p.length : Half).toNat = p.length := by
    rw [BitVec.toNat_ofNat]
    omega
  have hsum : sum8 (Memory.readRange r.buf 0 (6 + p.length)) ≠ Memory.read r.buf (6 + p.length) := by
    rw [← Memory.readRange_take _ _ _ (7 + p.length) (by omega), Memory.read_of_readRange hbytes (by omega), hbytes]
    refine sum8_set_ne _ _ _ _ (by rw [frameBytes_length]; omega) (by omega) ?_ hx
    rw [frameBytes_take, frameBytes_checksum]
  have h0 : Memory.read r.buf 0 = 0x55 := RxUnit.read_of_unchanged_byte hbytes (by omega) (by omega)
  have h1 : Memory.read r.buf 1 = 0xAA := RxUnit.read_of_unchanged_byte hbytes (by omega) (by omega)
  have h4 : Memory.read r.buf 4 = hi8 (BitVec.ofNat 16 p.length) :=
    RxUnit.read_of_unchanged_byte hbytes (by omega) (by omega)
  have h5 : Memory.read r.buf 5 = lo8 (BitVec.ofNat 16 p.length) :=
    RxUnit.read_of_unchanged_byte hbytes (by omega) (by omega)
  rw [RxUnit.scan_synced P r (BitVec.ofNat 16 p.length) (by omega) h0 h1 (by rw [h4, h5, be16_hi8_lo8])]
  rw [← hlen] at hfit hcnt hsum
  exact RxUnit.candidate_badSum P _ _ _ r hfit hcnt hsum

end ChangedByte

/-- Settles O34: the scan of the changed frame is a drop or a mismatch, and neither reports an event. -/
theorem singleByteCorruptionIsDetected : Obligations.SingleByteCorruptionIsDetected := by
  intro s ver cmd p k x _ hcap hfit hcnt hlt hx hbytes
  refine ⟨_, exec_rxScan s, fun hbody => ?_, fun hsync => ?_⟩
  · rw [RxUnit.scan_of_changed_body s.params hbytes hcap hfit hcnt hlt hx hbody, State.scanned_of_no_events]
    exact ⟨rfl, rfl⟩
  · rw [RxUnit.scan_of_changed_sync s.params hbytes hcnt hx hsync, State.scanned_of_no_events]
    exact ⟨rfl, rfl⟩

end Sys2Proof.Machine
end

section
/-! PROOFS of the statements about `RX.PASS` (40_rx_frame_parser.md): its two phases, and what the parse loop does with
whole frames and with junk in front of them. -/
namespace Sys2Proof.Machine
open Sys2Proof

/-! ### A pass in its two phases (R106) -/

/-- The parse loop's result carried over to the state. -/
def State.parsed (q : ScanResult) (s : State) : State :=
  State.respond (.status q.outcome.status) (State.emit q.events { s with rx := q.unit })

theorem exec_rxPass_of_drained {s : State} (h : s.drainPhase.error = none) :
    exec .rxPass s = .next (s.drained.parsed s.parsePhase) := execRxPass_of_drained h

/-- With no answer left to read a pass is the parse loop on what is held (R55). -/
theorem exec_rxPass_of_idle {s : State} (h : s.env.rxIn = []) :
    exec .rxPass s = .next (s.parsed (s.rx.parse s.params s.rx.cnt)) := by
  have hphase : s.drainPhase = { unit := s.rx, rest := [], error := none } := by
    rw [State.drainPhase, h]
    rfl
  have hsame : s.drained = s := by
    rw [State.drained, hphase, ← h]
  rw [exec_rxPass_of_drained (by rw [hphase]), State.parsePhase, hphase, hsame]

/-- A pass is settled by what phase 1 makes of the buffer and of the transport's answers. -/
theorem exec_rxPass_congr {s : State} {r : RxUnit} {as : List ReadAnswer}
    (h : r.drain s.params.rxCap as = s.drainPhase) :
    exec .rxPass { s with rx := r, env := { s.env with rxIn := as } } = exec .rxPass s := by
  rw [State.drainPhase] at h
  simp only [exec, execRxPass, h]

theorem RxUnit.drain_byte_of_room (cap : Nat) (b : Byte) (rest : List ReadAnswer) (r : RxUnit) (h : r.cnt < cap) :
    r.drain cap (.byte b :: rest) = (r.push cap b).drain cap rest := by
  have hok : (r.push cap b).stat = .ok := by rw [RxUnit.push_room cap b r h]
  simp only [RxUnit.drain, hok]

theorem RxUnit.drain_byte_of_full (cap : Nat) (b : Byte) (rest : List ReadAnswer) (r : RxUnit) (h : cap ≤ r.cnt) :
    r.drain cap (.byte b :: rest) =
      { unit := { r with cnt := 0, stat := .malformedFrame }, rest := rest, error := some .malformedFrame } := by
  simp only [RxUnit.drain, RxUnit.push_full cap b r h]

theorem ScanOutcome.continues_iff (o : ScanOutcome) : o.continues = true ↔ o = .drop ∨ o = .dispatch := by
  cases o <;> decide

/-- A scan that lets the loop go on, and then a pass from where it left the buffer, is one pass. -/
theorem exec_rxPass_of_continues {s : State} (hidle : s.env.rxIn = [])
    (hgo : (s.rx.scan s.params).outcome.continues = true) :
    exec .rxPass s =
      exec .rxPass (State.emit (s.rx.scan s.params).events { s with rx := (s.rx.scan s.params).unit }) := by
  have hidle' :
      (State.emit (s.rx.scan s.params).events { s with rx := (s.rx.scan s.params).unit }).env.rxIn = [] := hidle
  rw [exec_rxPass_of_idle hidle, exec_rxPass_of_idle hidle', RxUnit.parse_unroll, if_pos hgo]
  simp only [State.parsed, State.emit, State.respond, List.append_assoc]

/-- A scan that ends the loop ends the pass with its status. -/
theorem exec_rxPass_of_ends {s : State} (hidle : s.env.rxIn = [])
    (hend : ¬ (s.rx.scan s.params).outcome.continues = true) :
    exec .rxPass s = .next (s.parsed (s.rx.scan s.params)) := by
  rw [exec_rxPass_of_idle hidle, RxUnit.parse_unroll, if_neg hend]

/-- Settles O29, clause by clause: one equation of phase 1 per answer of `read_byte`, one of phase 2 per kind of
outcome. -/
theorem rxPassDrainsThenParses : Obligations.RxPassDrainsThenParses := by
  refine fun s rest => ⟨fun hin => ?_, fun b hin hfull => ?_, fun b t hin hroom hpush => ?_, fun hin => ?_,
    fun t o st hidle hscan hres => ?_⟩
  · have hphase : s.drainPhase =
        { unit := s.rx.raise .transportReadError, rest := rest, error := some .transportReadError } := by
      rw [State.drainPhase, hin]
      rfl
    refine (execRxPass_of_error (by rw [hphase])).trans ?_
    rw [State.drained, hphase]
    rfl
  · have hphase := RxUnit.drain_byte_of_full s.params.rxCap b rest s.rx hfull.ge
    rw [← hin, ← State.drainPhase] at hphase
    refine (execRxPass_of_error (by rw [hphase])).trans ?_
    rw [State.drained, hphase]
    rfl
  · cases hpush
    refine (exec_rxPass_congr ?_).symm
    rw [State.drainPhase, hin]
    exact (RxUnit.drain_byte_of_room s.params.rxCap b rest s.rx hroom).symm
  · have hphase : s.drainPhase = { unit := s.rx, rest := rest, error := none } := by
      rw [State.drainPhase, hin]
      rfl
    refine ⟨_, exec_rxPass_of_idle rfl, ?_⟩
    rw [exec_rxPass_of_drained (by rw [hphase]), State.parsePhase, State.drained, hphase]
    rfl
  · cases hscan
    simp only [State.scanned_env_responses, List.append_cancel_left_eq, List.cons.injEq, Response.scan.injEq,
      and_true] at hres
    obtain ⟨rfl, rfl⟩ := hres
    refine ⟨fun hgo => ?_, fun hdrop hdispatch => ?_⟩
    · exact exec_rxPass_of_continues hidle ((ScanOutcome.continues_iff _).mpr hgo)
    · refine exec_rxPass_of_ends hidle fun hgo => ?_
      exact ((ScanOutcome.continues_iff _).mp hgo).elim hdrop hdispatch

/-! ### The parse loop on frames and on junk (R105, R109, R110) -/

/-- The bytes of frames sent one behind the other; a frame is its version, command and payload. -/
def burstBytes (fs : List (Byte × Byte × List Byte)) : List Byte :=
  (fs.map fun f => frameBytes f.1 f.2.1 f.2.2).flatten

/-- The frame-out events of those frames, in order (R26). -/
def burstEvents (fs : List (Byte × Byte × List Byte)) : List FrameEvent :=
  fs.map fun f => frameEvent f.1 f.2.1 f.2.2

theorem burstBytes_cons (ver cmd : Byte) (p : List Byte) (fs : List (Byte × Byte × List Byte)) :
    burstBytes ((ver, cmd, p) :: fs) = frameBytes ver cmd p ++ burstBytes fs := rfl

/-- The parse loop on a buffer of whole frames reports them all and waits for a header with nothing held. -/
theorem RxUnit.parse_burst (P : Params) (fs : List (Byte × Byte × List Byte)) (r : RxUnit)
    (hw : Memory.wf r.buf = true) (hcap : P.rxCap ≤ 65542) (hfit : (burstBytes fs).length ≤ P.rxCap)
    (hheld : r.held = burstBytes fs) :
    ∃ r' : RxUnit, r'.cnt = 0 ∧ r'.stat = .ok ∧
      r.parse P r.cnt = { unit := r', outcome := .waitHdr, events := burstEvents fs } := by
  induction fs generalizing r with
  | nil =>
    have hcnt : r.cnt = 0 := by rw [← r.held_length, hheld]; rfl
    exact ⟨r.raise .ok, hcnt, rfl, RxUnit.parse_short P r (by omega)⟩
  | cons f fs ih =>
    obtain ⟨ver, cmd, p⟩ := f
    rw [burstBytes_cons] at hheld hfit
    rw [List.length_append, frameBytes_length] at hfit
    obtain ⟨r₁, hw₁, hheld₁, hparse⟩ :=
      RxUnit.parse_frame P r ver cmd p (burstBytes fs) hw (by omega) (by omega) hheld
    obtain ⟨r', hcnt, hstat, hrest⟩ := ih r₁ hw₁ (by omega) hheld₁
    rw [hrest] at hparse
    exact ⟨r', hcnt, hstat, hparse⟩

/-- The parse loop drops one byte after the other as long as no sync pair starts there and five bytes stay behind. -/
theorem RxUnit.parse_junk (P : Params) (n : Nat) (r : RxUnit) (hw : Memory.wf r.buf = true) (hn : n + 5 ≤ r.cnt)
    (hjunk : ∀ k, k < n → ¬ r.syncAt k) :
    ∃ r' : RxUnit, Memory.wf r'.buf = true ∧ r'.held = r.held.drop n ∧ r.parse P r.cnt = r'.parse P r'.cnt := by
  induction n generalizing r with
  | zero => exact ⟨r, hw, rfl, rfl⟩
  | succ n ih =>
    have hscan := RxUnit.scan_not_syncAt P r (by omega) (hjunk 0 (Nat.succ_pos n))
    have hjunk₁ : ∀ k, k < n → ¬ ((r.dropFront 1).raise .ok).syncAt k := by
      intro k hk
      simp only [RxUnit.syncAt, RxUnit.raise_buf]
      rw [RxUnit.dropFront_read 1 r hw k (by omega), RxUnit.dropFront_read 1 r hw (k + 1) (by omega)]
      exact hjunk (k + 1) (by omega)
    obtain ⟨r', hw', hheld', hparse⟩ := ih ((r.dropFront 1).raise .ok) (RxUnit.dropFront_wf 1 r hw)
      (by rw [RxUnit.raise_cnt, RxUnit.dropFront_cnt]; omega) hjunk₁
    refine ⟨r', hw', ?_, ?_⟩
    · rw [hheld', RxUnit.held_raise, RxUnit.held_dropFront 1 r hw, List.drop_drop, Nat.add_comm]
    · rw [RxUnit.parse_unroll, hscan, ← hparse]
      rfl

/-- Settles O32: phase 1 holds every byte of the burst, and phase 2 reports its frames one after the other. -/
theorem frameBurstIsReceivedWhole : Obligations.FrameBurstIsReceivedWhole := by
  intro s fs hw hempty hcap hfit hin
  have hdrain := RxUnit.drain_bytes s.params.rxCap (burstBytes fs) s.rx hw (by rw [hempty, Nat.zero_add]; exact hfit)
  have hdrained : s.drainPhase = s.rx.drain s.params.rxCap ((burstBytes fs).map .byte) := by
    rw [State.drainPhase, hin]
    rfl
  rw [← hdrained] at hdrain
  obtain ⟨herror, hrest, hheld, hwf⟩ := hdrain
  have hnone : s.rx.held = [] := List.length_eq_zero_iff.mp (s.rx.held_length.trans hempty)
  rw [hnone, List.nil_append] at hheld
  obtain ⟨r, hcnt, hstat, hparse⟩ := RxUnit.parse_burst s.params fs s.drainPhase.unit hwf hcap hfit hheld
  refine ⟨_, exec_rxPass_of_drained herror, ?_⟩
  rw [State.parsePhase, hparse]
  refine ⟨?_, hcnt, hstat⟩
  rw [State.drained, hrest]
  rfl

/-- Settles O30: all but the last five bytes are junk in front of the last five, which wait for a header. -/
theorem unsyncedBytesDrainToFive : Obligations.UnsyncedBytesDrainToFive := by
  intro s hw hjunk hidle
  obtain ⟨r, _, hheld, hparse⟩ : ∃ r : RxUnit, Memory.wf r.buf = true ∧ r.held = s.rx.held.drop (s.rx.cnt - 5) ∧
      s.rx.parse s.params s.rx.cnt = r.parse s.params r.cnt := by
    obtain hshort | hlong := Nat.lt_or_ge s.rx.cnt 5
    · refine ⟨s.rx, hw, ?_, rfl⟩
      rw [Nat.sub_eq_zero_of_le hshort.le, List.drop_zero]
    · exact RxUnit.parse_junk s.params _ s.rx hw (by omega) fun k hk => hjunk k (by omega)
  have hcnt : r.cnt = min s.rx.cnt 5 := by
    rw [← r.held_length, hheld, List.length_drop, s.rx.held_length]
    omega
  rw [RxUnit.parse_short s.params r (by omega)] at hparse
  refine ⟨_, exec_rxPass_of_idle hidle, ?_⟩
  rw [hparse]
  refine ⟨?_, rfl, hcnt, fun k hk => ?_⟩
  · simp only [State.parsed, State.emit, State.respond, List.append_nil]
    rfl
  · show Memory.read r.buf k = _
    rw [← r.held_getD k (by omega), ← s.rx.held_getD _ (by omega), hheld]
    simp only [List.getD_eq_getElem?_getD, List.getElem?_drop, Nat.add_comm]

/-- Settles O31: the parse loop drops the junk and then finds a burst of one frame. -/
theorem junkBeforeAFrameIsDropped : Obligations.JunkBeforeAFrameIsDropped := by
  intro s junk ver cmd p hw hcap hfit hidle hcnt hbytes hjunk
  obtain ⟨r, hw₁, hheld, hparse⟩ := RxUnit.parse_junk s.params junk.length s.rx hw (by omega) hjunk
  have hall : s.rx.held = junk ++ frameBytes ver cmd p := by rw [RxUnit.held, hcnt, hbytes]
  rw [hall, List.drop_left] at hheld
  have hburst : r.held = burstBytes [(ver, cmd, p)] := by
    rw [hheld, burstBytes_cons]
    exact (List.append_nil _).symm
  have hlen : (burstBytes [(ver, cmd, p)]).length ≤ s.params.rxCap := by
    rw [← hburst, hheld, frameBytes_length]
    exact hfit
  obtain ⟨r', hcnt', hstat', hrest⟩ := RxUnit.parse_burst s.params [(ver, cmd, p)] r hw₁ hcap hlen hburst
  refine ⟨_, exec_rxPass_of_idle hidle, ?_⟩
  rw [hparse, hrest]
  exact ⟨rfl, hcnt', hstat'⟩

end Sys2Proof.Machine
end

section
/-! PROOFS of the statements about the TX unit (41_tx_frame_assembler.md): the fields of an assembled frame, what
`TX.FRAME` leaves for each way its write loop can end, and the loop-back law. -/
namespace Sys2Proof.Machine
open Sys2Proof

/-! ### `RX.DRAIN` is the parse loop (R84, R106) -/

/-- Scans repeated as `RX.DRAIN` repeats them leave what the parse loop of a pass leaves, and the last response is that
of the scan which ended the loop. -/
theorem rxScans_eq_parse (n : Nat) (s : State) :
    (rxScans n s).rx = (s.rx.parse s.params n).unit ∧
    (rxScans n s).env.events = s.env.events ++ (s.rx.parse s.params n).events ∧
    (rxScans n s).env.responses.getLast? =
      some (.scan (s.rx.parse s.params n).outcome (s.rx.parse s.params n).outcome.status) := by
  induction n generalizing s with
  | zero => exact ⟨rfl, rfl, getLast?_after_rxScan s⟩
  | succ n ih =>
    rw [rxScans, getLast?_after_rxScan, scanContinues, RxUnit.parse]
    by_cases hgo : (s.rx.scan s.params).outcome.continues = true
    · obtain ⟨hrx, hevents, hlast⟩ := ih (after .rxScan s)
      rw [if_pos hgo, if_pos hgo]
      refine ⟨hrx, ?_, hlast⟩
      rw [hevents, after_rxScan, State.scanned_env_events, List.append_assoc]
      rfl
    · rw [if_neg hgo, if_neg hgo]
      exact ⟨rfl, rfl, getLast?_after_rxScan s⟩

/-- Settles O33: the fed bytes are held as a burst of one frame, which the parse loop reports. -/
theorem loopBackDeliversTheFrame : Obligations.LoopBackDeliversTheFrame := by
  intro s ver cmd p hw hempty hcap hfit
  obtain ⟨hheld, hwf, hparams, hevents⟩ := rxFeed_held (frameBytes ver cmd p) s hw (by
    rw [hempty, Nat.zero_add, frameBytes_length]
    exact hfit)
  generalize rxFeed (frameBytes ver cmd p) s = fed at hheld hwf hparams hevents ⊢
  have hnone : s.rx.held = [] := List.length_eq_zero_iff.mp (s.rx.held_length.trans hempty)
  have hburst : fed.rx.held = burstBytes [(ver, cmd, p)] := by
    rw [hheld, hnone, burstBytes_cons]
    exact (List.append_nil _).symm
  have hlen : (burstBytes [(ver, cmd, p)]).length ≤ fed.params.rxCap := by
    rw [← hburst, hheld, hnone, List.nil_append, frameBytes_length, hparams]
    exact hfit
  obtain ⟨r, hcnt, hstat, hparse⟩ :=
    RxUnit.parse_burst fed.params [(ver, cmd, p)] fed.rx hwf (hparams ▸ hcap) hlen hburst
  obtain ⟨hrx, hemit, hlast⟩ := rxScans_eq_parse fed.rx.cnt fed
  rw [hparse] at hrx hemit hlast
  rw [rxDrain, hrx, hemit, hlast, hevents]
  exact ⟨rfl, rfl, hcnt, hstat⟩

/-! ### The fields of a frame (R71, R72, R130) -/

theorem hi8_ofNat (n : Nat) : hi8 (BitVec.ofNat 16 n) = BitVec.ofNat 8 (n / 256) := by
  apply BitVec.eq_of_toNat_eq
  rw [hi8_toNat, BitVec.toNat_ofNat, BitVec.toNat_ofNat]
  omega

theorem lo8_ofNat (n : Nat) : lo8 (BitVec.ofNat 16 n) = BitVec.ofNat 8 (n % 256) := by
  apply BitVec.eq_of_toNat_eq
  rw [lo8_toNat, BitVec.toNat_ofNat, BitVec.toNat_ofNat]
  omega

theorem frameBytes_header (ver cmd : Byte) (p : List Byte) :
    (frameBytes ver cmd p).take 6 =
      [0x55, 0xAA, ver, cmd, BitVec.ofNat 8 (p.length / 256), BitVec.ofNat 8 (p.length % 256)] := by
  rw [← hi8_ofNat, ← lo8_ofNat]
  rfl

theorem frameBytes_payload (ver cmd : Byte) (p : List Byte) :
    ((frameBytes ver cmd p).drop 6).take p.length = p := by
  rw [← List.append_nil (frameBytes ver cmd p), frameBytes_append]
  exact List.take_left

/-- Settles O36, field by field. -/
theorem frameBytesLayout : Obligations.FrameBytesLayout := by
  intro ver cmd p _
  refine ⟨frameBytes_length ver cmd p, frameBytes_header ver cmd p, frameBytes_payload ver cmd p, ?_⟩
  rw [frameBytes_checksum, frameBytes_take, sum8_toNat]

/-! ### What `TX.FRAME` leaves (R131, R132) -/

/-- The status `TX.FRAME` returns for what its write loop did. -/
def SendResult.status (q : SendResult) : Status := if q.failed then .transportWriteError else .ok

theorem exec_txFrame_of_fit {s : State} {p : List Byte} (ver cmd : Byte) (hfit : p.length + 7 ≤ s.params.txCap) :
    exec (.txFrame ver cmd p) s = .next (s.transmit (frameBytes ver cmd p)) := if_neg (Nat.not_lt.mpr hfit)

/-- `TX.FRAME` of a payload that fits, for any end of the write loop: the frame is in `TXBUF` either way. -/
theorem exec_txFrame_of_send {s : State} {p : List Byte} {q : SendResult} (ver cmd : Byte)
    (hw : Memory.wf s.tx.buf = true) (hfit : p.length + 7 ≤ s.params.txCap)
    (hsend : send (frameBytes ver cmd p) s.env.txAns = q) :
    ∃ t, exec (.txFrame ver cmd p) s = .next t ∧
      t = { s with tx := t.tx
                   env := { s.env with
                     txAns := q.rest
                     txlog := s.env.txlog ++ q.sent
                     responses := s.env.responses ++ [.status q.status] } } ∧
      t.tx.len = 7 + p.length ∧ t.tx.sent = q.sent.length ∧ t.tx.stat = q.status ∧
      Memory.readRange t.tx.buf 0 (7 + p.length) = frameBytes ver cmd p ∧
      ∀ a, 7 + p.length ≤ a → Memory.read t.tx.buf a = Memory.read s.tx.buf a := by
  subst hsend
  have hlen := frameBytes_length ver cmd p
  refine ⟨_, exec_txFrame_of_fit ver cmd hfit, rfl, hlen, rfl, rfl, ?_, fun a ha => ?_⟩
  · rw [← hlen]
    exact State.transmit_frame (frameBytes ver cmd p) s hw
  · exact Memory.read_writeRange_other s.tx.buf 0 a (frameBytes ver cmd p) (.inr (by omega))

/-- Settles O37: without an `Error` the write loop sends the whole frame. -/
theorem txFrameSendsTheWholeFrame : Obligations.TxFrameSendsTheWholeFrame := by
  intro s ver cmd p hw hfit haccepted
  rw [← frameBytes_length ver cmd p] at haccepted
  have h := exec_txFrame_of_send ver cmd hw hfit (send_all _ _ haccepted)
  rwa [frameBytes_length] at h

/-- Settles O39: the write loop ends at the first `Error`, with the bytes before it sent. -/
theorem txFrameStopsAtAWriteError : Obligations.TxFrameStopsAtAWriteError := by
  intro s ver cmd p i hw hfit hi haccepted herror
  have hbyte : i < (frameBytes ver cmd p).length := by rwa [frameBytes_length]
  have h := exec_txFrame_of_send ver cmd hw hfit (send_fails _ _ i hbyte haccepted herror)
  rwa [List.length_take_of_le hbyte.le] at h

end Sys2Proof.Machine
end

section
/-! PROOFS of the statements about the DP unit's setters (42_dp_setters.md): each setter is one load of the DP register,
and the statements read off that load what its truncation keeps. -/
namespace Sys2Proof.Machine
open Sys2Proof

/-! ### The setters (R150 to R157) -/

/-- `DP.SET_STRING` keeps the content up to the least index `z` of a 0x00, and of that the first 63 bytes (R154). -/
theorem keepString_eq_take {b : List Byte} {z : Nat} (hz : z ≤ b.length) (hbefore : ∀ i, i < z → b.getD i 0 ≠ 0)
    (hend : z = b.length ∨ b.getD z 0 = 0) : keepString b = b.take (min z 63) := by
  rw [keepString, untilNul_eq_take b z hz hbefore hend, List.take_take, Nat.min_comm]

/-- Settles O43: the length loaded is that of the content kept, `min z 63` since `z` is at most the operand's length. -/
theorem setStringEndsAtNulAndAtSixtyThree : Obligations.SetStringEndsAtNulAndAtSixtyThree := by
  intro s id b z hz hbefore hend
  have hkeep := keepString_eq_take hz hbefore hend
  have hlen : (keepString b).length = min z 63 := by
    rw [hkeep, List.length_take_of_le ((Nat.min_le_left z 63).trans hz)]
  rw [← hkeep, ← hlen]
  rfl

/-- Settles O40: what is kept is the first 64 bytes, and the length loaded is the length of that. -/
theorem setRawKeepsSixtyFourBytes : Obligations.SetRawKeepsSixtyFourBytes := by
  intro s id b
  rw [Nat.min_comm, ← keepRaw_length]
  rfl

/-- Settles O41: what is kept is the first 4 bytes, and the length loaded is the length of that. -/
theorem setBitmapKeepsFourBytes : Obligations.SetBitmapKeepsFourBytes := by
  intro s id b
  rw [Nat.min_comm, ← keepBitmap_length]
  rfl

/-- Settles O42: nothing is cut, so each setter loads the DP register as its rule has it. -/
theorem fixedSizeSettersLoadTheirOperand : Obligations.FixedSizeSettersLoadTheirOperand :=
  fun _ _ _ _ _ => ⟨rfl, rfl, rfl⟩

end Sys2Proof.Machine
end

section
/-! PROOFS of the statements about the DP unit's codec (43_dp_codec.md): what the encoder emits per variant, when the
decoder fails and what it reads, and the two round trips. They rest on the record of the DP register (`DpUnit.record`) and
on the cases of a decode (Laws/Dp.lean). -/
namespace Sys2Proof.Machine
open Sys2Proof

/-! ### The encoder (R170 to R172) -/

/-- `be32` is the big-endian digits of the pattern (R172). -/
theorem be32_eq (v : Word) :
    be32 v = [BitVec.ofNat 8 (v.toNat / 16777216), BitVec.ofNat 8 (v.toNat / 65536), BitVec.ofNat 8 (v.toNat / 256),
      BitVec.ofNat 8 v.toNat] := by
  simp [be32, BitVec.extractLsb', Nat.shiftRight_eq_div_pow]

/-- The record of a consistent data point carries the type of the variant it holds (R39). -/
theorem DpUnit.record_of_consistent {d : DpUnit} {val : DpVal} (h : d.consistent) (hval : d.val = val) :
    d.record = recordBytes d.id val.type (encLen d.len val) (encPayload val) := by
  subst hval
  obtain ⟨htype, _⟩ := h
  rw [DpUnit.record, enc, htype]

/-- The record of a variant that the encoder gives a length below 256: the high length byte is 0x00. -/
theorem DpUnit.record_of_short {d : DpUnit} {val : DpVal} {n : Nat} (h : d.consistent) (hval : d.val = val)
    (hlen : encLen d.len val = BitVec.ofNat 16 n) (hn : n < 256) :
    d.record = [d.id, val.type.code, 0, BitVec.ofNat 8 n] ++ encPayload val := by
  rw [DpUnit.record_of_consistent h hval, hlen, recordBytes, hi8_ofNat, lo8_ofNat, Nat.div_eq_of_lt hn,
    Nat.mod_eq_of_lt hn]
  rfl

/-- Settles O45, variant by variant. -/
theorem encodeReturnsTheRecord : Obligations.EncodeReturnsTheRecord := by
  intro s hvalid hcons
  refine ⟨s.dp.record, exec_dpEnc_of_valid hvalid, fun b hb => ?_, fun t ht => ?_, fun v hv => ?_, fun b hb => ?_,
    fun x hx => ?_, fun b hb => ?_⟩
  · exact DpUnit.record_of_consistent hcons hb
  · rw [DpUnit.record_of_short (n := 1) hcons ht rfl (by decide)]
    cases t <;> rfl
  · rw [DpUnit.record_of_short (n := 4) hcons hv rfl (by decide), encPayload, be32_eq]
    rfl
  · have hle : b.length ≤ 63 := by
      obtain ⟨_, hfits, _⟩ := hcons
      simp only [hb, DpVal.fits, Bool.and_eq_true, decide_eq_true_eq] at hfits
      exact hfits.1
    exact DpUnit.record_of_short hcons hb rfl (by omega)
  · exact DpUnit.record_of_short (n := 1) hcons hx rfl (by decide)
  · exact DpUnit.record_of_consistent hcons hb

/-! ### The decoder (R173 to R176, R179) -/

theorem exec_dpDec (bs : List Byte) (s : State) : exec (.dpDec bs) s = .next (s.dpDecode bs) := rfl

theorem DpType.code_toNat_le (ty : DpType) : ty.code.toNat ≤ 5 := by cases ty <;> decide

/-- A record the decoder accepts has none of the four faults, so an operand with one of them fails (R173). -/
theorem State.dpDecode_of_malformed (s : State) (bs : List Byte)
    (h : bs.length < 4 ∨ 64 < (be16 (bs.getD 2 0) (bs.getD 3 0)).toNat ∨
      bs.length < 4 + (be16 (bs.getD 2 0) (bs.getD 3 0)).toNat ∨ 5 < (bs.getD 1 0).toNat) :
    s.dpDecode bs = s.dpFail := by
  obtain hfail | ⟨id, ty, len, rest, rfl, hle, hrest, _⟩ := State.dpDecode_cases bs s
  · exact hfail
  · have hlen : be16 ((recordBytes id ty len rest).getD 2 0) ((recordBytes id ty len rest).getD 3 0) = len :=
      be16_hi8_lo8 len
    have htype : ((recordBytes id ty len rest).getD 1 0).toNat ≤ 5 := DpType.code_toNat_le ty
    rw [hlen, recordBytes_length] at h
    omega

/-- Settles O47. -/
theorem decodeRejectsMalformedRecords : Obligations.DecodeRejectsMalformedRecords := by
  intro s b h
  refine ⟨s.dpFail, ?_, rfl, rfl, rfl⟩
  rw [exec_dpDec, State.dpDecode_of_malformed s b h]

/-- Settles O48: the operand is a record, which loads what its type reads of its payload. -/
theorem decodeLoadsEveryType : Obligations.DecodeLoadsEveryType := by
  intro s id len rest p ty val hle hrest hp h
  calc exec (.dpDec (recordBytes id ty len rest)) s
      = .next (s.dpRecord id ty len rest) := by rw [exec_dpDec, State.dpDecode_recordBytes]
    _ = .next (s.dpLoad id ty len val (.decoded (4 + len.toNat))) := by
        rw [State.dpRecord_loads s id len rest p ty val hle hrest hp h]

/-- Bytes behind the declared payload are not read (R179). -/
theorem State.dpRecord_append (id : Byte) (ty : DpType) (len : Half) (p more : List Byte) (s : State)
    (h : p.length = len.toNat) : s.dpRecord id ty len (p ++ more) = s.dpRecord id ty len p := by
  have hlong : ¬ (p ++ more).length < len.toNat := by
    rw [List.length_append]
    omega
  simp only [State.dpRecord, if_neg hlong, if_neg h.not_lt, List.take_left' h, List.take_of_length_le h.le]

/-- The record at the front of an operand is the one decoded, whatever follows it (R173, R179). -/
theorem exec_dpDec_append (s : State) (id : Byte) (ty : DpType) (len : Half) (p more : List Byte)
    (h : p.length = len.toNat) :
    exec (.dpDec ([id, ty.code, hi8 len, lo8 len] ++ p ++ more)) s = .next (s.dpRecord id ty len p) := by
  rw [List.append_assoc, ← State.dpRecord_append id ty len p more s h, ← State.dpDecode_recordBytes]
  rfl

/-- Settles O51: both sides decode the same record. -/
theorem decodeIgnoresTrailingBytes : Obligations.DecodeIgnoresTrailingBytes := by
  intro s id ty len p more h
  have halone := exec_dpDec_append s id ty len p [] h
  rw [List.append_nil] at halone
  rw [exec_dpDec_append s id ty len p more h, halone]

/-! ### Decode after encode (R177) -/

/-- Settles O52: the record decodes on any state to the data point it was encoded from. -/
theorem decodeAfterEncodeRestoresTheDataPoint : Obligations.DecodeAfterEncodeRestoresTheDataPoint := by
  intro s hform
  have hdecode := State.dpDecode_record hform
  obtain ⟨hvalid, _⟩ := hform
  refine ⟨s.dp.record, s.encoded, exec_dpEnc_of_valid hvalid, rfl, fun w => ?_⟩
  refine ⟨w.dpDecode s.dp.record, exec_dpDec _ w, ?_, ?_⟩
  · rw [hdecode w, State.dpLoad_dp, ← hvalid]
  · rw [hdecode w, State.dpLoad_env_responses]

/-! ### Encode after decode (R178) -/

/-- `be32(s32(b0, b1, b2, b3))` is the four bytes again. -/
theorem be32_s32 (b0 b1 b2 b3 : Byte) : be32 (s32 b0 b1 b2 b3) = [b0, b1, b2, b3] := by
  have := b0.isLt; have := b1.isLt; have := b2.isLt; have := b3.isLt
  rw [be32_eq, s32_toNat]
  simp only [List.cons.injEq, and_true]
  refine ⟨?_, ?_, ?_, ?_⟩ <;>
  · apply BitVec.eq_of_toNat_eq
    rw [BitVec.toNat_ofNat]
    omega

/-- The records R178 calls canonical: those the encoder itself emits for a type, and every one of RAW and BITMAP. -/
def CanonicalRecord (ty : DpType) (len : Half) (p : List Byte) : Prop :=
  ty = .raw ∨ ty = .bitmap ∨ (ty = .bool ∧ (p = [0] ∨ p = [1])) ∨ (ty = .value ∧ len.toNat = 4) ∨
    (ty = .enum ∧ len.toNat = 1) ∨ (ty = .string ∧ len.toNat ≤ 63 ∧ (0 : Byte) ∉ p)

/-- What is decoded from a canonical record is encoded with the length and the payload it came with. -/
theorem enc_readPayload_of_canonical (id : Byte) {ty : DpType} {len : Half} {p : List Byte}
    (hp : p.length = len.toNat) (h : CanonicalRecord ty len p) :
    enc id ty len (readPayload ty len.toNat (stage p)) = recordBytes id ty len p := by
  obtain rfl : len = BitVec.ofNat 16 p.length := by rw [hp, BitVec.ofNat_toNat, BitVec.setWidth_eq]
  have hstaged := stage_take p
  rw [hp] at hstaged
  obtain rfl | rfl | ⟨rfl, hbit⟩ | ⟨rfl, hfour⟩ | ⟨rfl, hone⟩ | ⟨rfl, hle, hnul⟩ := h
  · exact congrArg (recordBytes id .raw _) hstaged
  · exact congrArg (recordBytes id .bitmap _) hstaged
  · obtain rfl | rfl := hbit <;> rfl
  · obtain ⟨b0, b1, b2, b3, rfl⟩ := List.length_eq_four.mp (hp.trans hfour)
    exact congrArg (recordBytes id .value _) (be32_s32 b0 b1 b2 b3)
  · obtain ⟨e, rfl⟩ := List.length_eq_one_iff.mp (hp.trans hone)
    rfl
  · rw [readPayload, readString, Nat.min_eq_left hle, hstaged, untilNul_of_no_nul p hnul]
    rfl

/-- A register with status `OK` is left as it is by `DP.ENC` (R171). -/
theorem State.encoded_of_ok {s : State} (h : s.dp.stat = .ok) : s.encoded = s.respond (.encoded s.dp.record) := by
  have hdp : s.dp.raise .ok = s.dp := by rw [DpUnit.raise, ← h]
  rw [State.encoded, hdp]

/-- Settles O53: the decode loads what it reads of the payload, and for a canonical record that encodes to the record. -/
theorem encodeAfterDecodeOfCanonicalRecords : Obligations.EncodeAfterDecodeOfCanonicalRecords := by
  intro s t id ty len p more hp hle hcanonical hdec
  rw [exec_dpDec_append s id ty len p more hp] at hdec
  obtain ⟨hmalformed, _⟩ | ⟨_, _, hload⟩ := State.dpRecord_cases id ty len p s
  · omega
  · rw [hload, List.take_of_length_le hp.le, Host.Outcome.next.injEq] at hdec
    have hrecord : t.dp.record = recordBytes id ty len p := by
      rw [← hdec]
      exact enc_readPayload_of_canonical id hp hcanonical
    have hvalid : t.dp.valid = true := by rw [← hdec, State.dpLoad_dp]
    have hok : t.dp.stat = .ok := by rw [← hdec, State.dpLoad_dp]
    rw [exec_dpEnc_of_valid hvalid, State.encoded_of_ok hok, hrecord]
    rfl

end Sys2Proof.Machine
end

section
/-! PROOFS of the statements about the exceptions (60_exceptions.md): the two that an operation raises before it has done
any of its work, each with the equation of the branch that raises it. -/
namespace Sys2Proof.Machine
open Sys2Proof

theorem exec_txFrame_of_not_fit {s : State} {p : List Byte} (ver cmd : Byte) (hlong : s.params.txCap < p.length + 7) :
    exec (.txFrame ver cmd p) s = .next s.txTooLong := if_pos hlong

/-- Settles O38: `State.txTooLong` writes the TX registers alone, and neither `TXBUF` nor the transport (R131, R206). -/
theorem txFrameRefusesALongPayload : Obligations.TxFrameRefusesALongPayload :=
  fun _ ver cmd _ hlong => exec_txFrame_of_not_fit ver cmd hlong

/-- Settles O46: `DpUnit.raise` writes nothing but `DPSTAT` (R171, R207). -/
theorem encodeWithoutADataPointFails : Obligations.EncodeWithoutADataPointFails :=
  fun _ hinvalid => exec_dpEnc_of_invalid hinvalid

end Sys2Proof.Machine
end

section
/-! PROOFS of the statements about reset and the hazards (70_reset_and_hazards.md): what `RESET` leaves, and the states in
which a scan changes nothing. `RESET` leaves such a state, and so does a checksum mismatch under `HOLD`. -/
namespace Sys2Proof.Machine
open Sys2Proof

/-! ### `RESET` (R230, R231) -/

/-- Settles O16: each value is the one `execReset` writes, and it writes neither parameters nor environment. -/
theorem resetClearsEveryUnit : Obligations.ResetClearsEveryUnit :=
  fun _ => ⟨_, rfl, rfl, rfl, rfl, rfl, rfl, rfl⟩

/-! ### States a scan does not change -/

/-- A scan of `s` ends in `o` and would leave the RX unit as it is, with nothing reported. -/
def State.RxRests (o : ScanOutcome) (s : State) : Prop :=
  s.rx.scan s.params = { unit := s.rx, outcome := o, events := [] }

theorem exec_rxScan_of_rests {s : State} {o : ScanOutcome} (h : s.RxRests o) :
    exec .rxScan s = .next (s.respond (.scan o o.status)) := by
  rw [exec_rxScan_of_scan h, State.scanned_of_no_events]

/-- A pass with nothing to read ends with its first scan. -/
theorem exec_rxPass_of_rests {s : State} {o : ScanOutcome} (h : s.RxRests o) (hend : o.continues = false)
    (hidle : s.env.rxIn = []) : exec .rxPass s = .next (s.respond (.status o.status)) := by
  unfold State.RxRests at h
  rw [exec_rxPass_of_ends hidle (by rw [h]; exact Bool.eq_false_iff.mp hend), h]
  simp only [State.parsed, State.emit, State.respond, List.append_nil]

/-- A receiver that waits for a header with `RXSTAT = OK` is at rest. -/
theorem State.rxRests_of_short {s : State} (hshort : s.rx.cnt < 6) (hok : s.rx.stat = .ok) : s.RxRests .waitHdr := by
  have hsame : s.rx.raise .ok = s.rx := by rw [RxUnit.raise, ← hok]
  rw [State.RxRests, RxUnit.scan_short s.params s.rx hshort, hsame]

/-- Settles O17: `RESET` leaves a receiver at rest and no data point. -/
theorem afterResetNothingIsHeld : Obligations.AfterResetNothingIsHeld := by
  intro s t ht
  cases ht
  have hempty : (after .reset s).rx.cnt = 0 := rfl
  have hrests : (after .reset s).RxRests .waitHdr := State.rxRests_of_short (by omega) rfl
  exact ⟨exec_rxScan_of_rests hrests, exec_rxPass_of_rests hrests rfl, exec_dpEnc_of_invalid rfl⟩

/-! ### The wedge of `HOLD` (R104, R236) -/

/-- No step of parsing reads `RXSTAT` (R102). -/
theorem RxUnit.scan_raise (P : Params) (st : Status) (r : RxUnit) : (r.raise st).scan P = r.scan P := rfl

/-- A candidate that ends in `BADSUM` reports nothing, and leaves what `CSUM_POLICY` makes of the buffer. -/
theorem RxUnit.candidate_of_badSum (P : Params) (ver cmd : Byte) (len : Half) (r : RxUnit)
    (h : (r.candidate P ver cmd len).outcome = .badSum) :
    r.candidate P ver cmd len = { unit := r.badSum P, outcome := .badSum, events := [] } := by
  by_cases hfit : 7 + len.toNat ≤ P.rxCap
  · by_cases hcnt : 7 + len.toNat ≤ r.cnt
    · by_cases hsum : sum8 (Memory.readRange r.buf 0 (6 + len.toNat)) = Memory.read r.buf (6 + len.toNat)
      · rw [RxUnit.candidate_dispatch P ver cmd len r hfit hcnt hsum] at h
        cases h
      · exact RxUnit.candidate_badSum P ver cmd len r hfit hcnt hsum
    · rw [RxUnit.candidate_waitBody P ver cmd len r hfit (Nat.lt_of_not_le hcnt)] at h
      cases h
  · rw [RxUnit.candidate_tooLong P ver cmd len r (Nat.lt_of_not_le hfit)] at h
    cases h

/-- The same for a scan: only a candidate in sync reaches the checksum. -/
theorem RxUnit.scan_of_badSum (P : Params) (r : RxUnit) (h : (r.scan P).outcome = .badSum) :
    r.scan P = { unit := r.badSum P, outcome := .badSum, events := [] } := by
  by_cases h6 : 6 ≤ r.cnt
  · by_cases hsync : r.syncAt 0
    · obtain ⟨h0, h1⟩ := hsync
      rw [RxUnit.scan_synced P r _ h6 h0 h1 rfl] at h ⊢
      exact RxUnit.candidate_of_badSum P _ _ _ r h
    · rw [RxUnit.scan_not_syncAt P r h6 hsync] at h
      cases h
  · rw [RxUnit.scan_short P r (Nat.lt_of_not_le h6)] at h
    cases h

/-- Settles O35: under `HOLD` the mismatch writes `RXSTAT` alone, which no scan reads, so it leaves a receiver at
rest. -/
theorem holdPolicyWedgesTheReceiver : Obligations.HoldPolicyWedgesTheReceiver := by
  intro s t hhold ht hres
  cases ht
  have hbad : (s.rx.scan s.params).outcome = .badSum := by
    simp only [State.scanned_env_responses, List.append_cancel_left_eq, List.cons.injEq, Response.scan.injEq,
      and_true] at hres
    exact hres.1
  have hscan : s.rx.scan s.params = { unit := s.rx.raise .checksumError, outcome := .badSum, events := [] } := by
    rw [RxUnit.scan_of_badSum s.params s.rx hbad, RxUnit.badSum_hold hhold]
  rw [hscan]
  have hrests : (s.scanned { unit := s.rx.raise .checksumError, outcome := .badSum, events := [] }).RxRests .badSum :=
    (RxUnit.scan_raise s.params .checksumError s.rx).trans hscan
  exact ⟨rfl, List.append_nil _, exec_rxScan_of_rests hrests, exec_rxPass_of_rests hrests rfl⟩

end Sys2Proof.Machine
end
